-- ==== Sys2Proof/Word.lean ====
section
/-! DEFINITION. The words of the core (00_scope.md R7, R8): bytes, 32-bit words, 64-bit words.
Every value is unsigned and every addition wraps (R8, R9), so bit vectors are the right type. -/

namespace Sys2Proof

/-- A byte, `u8` (R8). -/
abbrev Byte := BitVec 8

/-- A 32-bit word, `u32` (R8): `WORD_BITS = REG_BITS = 32` (R7). -/
abbrev Word := BitVec 32

/-- A 64-bit word, `u64` (R8): the width of COUNT and of the length field (R7). -/
abbrev DWord := BitVec 64

end Sys2Proof
end

