-- ==== Sys2Proof/Config.lean ====
section
/-! DEFINITION. The parameters of the hardware (00_scope.md R7), and the values the spec leaves open. -/

namespace Sys2Proof

/-- The two algorithms, which are also the two channels (R3, R7): channel 0 is MD5, channel 1 is SHA-1. -/
inductive Alg where
  | md5
  | sha1
  deriving DecidableEq, Repr, Inhabited

namespace Alg

/-- The other channel. -/
def other : Alg → Alg
  | .md5 => .sha1
  | .sha1 => .md5

/-- Words of the hash state: `MD5_STATE_WORDS = 4`, `SHA1_STATE_WORDS = 5` (R7). -/
@[reducible] def hashWords : Alg → Nat
  | .md5 => 4
  | .sha1 => 5

/-- Message registers of the compressor: X[0..15] of MD5, W[0..79] of SHA-1 (10_state.md R33). -/
@[reducible] def messageWords : Alg → Nat
  | .md5 => 16
  | .sha1 => 80

/-- Width of the compressor's step counter: 6 bits (42_md5_compressor.md R180) or 7 bits
(43_sha1_compressor.md R219). -/
@[reducible] def counterBits : Alg → Nat
  | .md5 => 6
  | .sha1 => 7

/-- Bytes of the digest: `MD5_DIGEST_BYTES = 16`, `SHA1_DIGEST_BYTES = 20` (R7). -/
def digestBytes : Alg → Nat
  | .md5 => 16
  | .sha1 => 20

end Alg

/-- The working registers of a compressor (10_state.md R33): the working variables a, b, c, d (and e), the
message registers (X or W) and the step counter (i or t). -/
structure CompressorRegs (alg : Alg) where
  vars    : Vector Word alg.hashWords
  words   : Vector Word alg.messageWords
  counter : BitVec alg.counterBits
  deriving DecidableEq, Repr, Inhabited

/-- The parameter `LEN_OVERFLOW` (R7, 41_padding_digest.md R146): what FINALIZE does with a message of 2^61 bytes
or more. `wrap` is the spec's default. -/
inductive LenOverflow where
  | wrap
  | refuse
  deriving DecidableEq, Repr, Inhabited

namespace Config

/-- `BLOCK_BYTES` (R7). -/
def blockBytes : Nat := 64

/-- `NB_MAX` (R7): the most bytes one INGEST moves. -/
def nbMax : Nat := 4

/-- The first message length, in bytes, whose bit length does not fit the 64-bit length field (R146). -/
def lengthLimit : Nat := 2 ^ 61

/-- The size of the register window in bytes (20_memory.md R60). -/
def windowBytes : Nat := 128

/-- FREE VALUE (R7, log 3): the platform's choice of the register window, counted in windows of 128 bytes. -/
opaque baseBlock : Nat

/-- The parameter `BASE` (R7, R60): the byte address of the window, aligned to 128 bytes and otherwise open. -/
def base : Nat := windowBytes * baseBlock

/-- FREE VALUE (10_state.md R33, 93_implementation_defined.md U3, log 7): what the compressor's working registers
hold after the `uses`-th compressing command. No rule reads it. -/
opaque unspecifiedRegs (alg : Alg) (uses : Nat) : CompressorRegs alg

end Config

end Sys2Proof
end

