-- ==== Sys2Proof/Syntax.lean ====
section
/-! DEFINITION. The instructions of the core: one constructor per row of spec/opcode_table.json.
The core fetches nothing (10_state.md R32): what it executes is a host access at its register port (30_encoding.md
R88), so an instruction is the meaning of one access, and an `Access` is the form in which it arrives. -/

namespace Sys2Proof

/-- One host access at the register port: a read or a write at a byte offset of the 128-byte window (20_memory.md
R60, R61), `bytes` bytes wide. Only a width of 4 has a meaning, so the value of a write is one 32-bit word (log 4). -/
inductive Access where
  | read  (off : BitVec 7) (bytes : Nat)
  | write (off : BitVec 7) (bytes : Nat) (value : Word)
  deriving DecidableEq, Repr

/-- The instructions. `c` is the channel, the window the access goes to (R60, R80); `r` is the register offset
inside the channel's window (10_state.md R35); `v` is the 32-bit value written. -/
inductive Instr where
  /-- `<ch>.nop`: CMD word 0x00000000 (40_hasher_commands.md R101). -/
  | nop (c : Alg)
  /-- `<ch>.reset`: CMD word 0x00000001 (R102). -/
  | reset (c : Alg)
  /-- `<ch>.ingest 0`: CMD word 0x00000002 (R103, R106). -/
  | ingest0 (c : Alg)
  /-- `<ch>.ingest 1`: CMD word 0x00000012 (R103). -/
  | ingest1 (c : Alg)
  /-- `<ch>.ingest 2`: CMD word 0x00000022 (R103). -/
  | ingest2 (c : Alg)
  /-- `<ch>.ingest 3`: CMD word 0x00000032 (R103). -/
  | ingest3 (c : Alg)
  /-- `<ch>.ingest 4`: CMD word 0x00000042 (R103). -/
  | ingest4 (c : Alg)
  /-- `<ch>.finalize`: CMD word 0x00000003 (R107). -/
  | finalize (c : Alg)
  /-- `wr <ch>.DATA, v` (R109). -/
  | wrData (c : Alg) (v : Word)
  /-- `wr <ch>.<REG>, v` (R111): any other write, a reserved word to CMD among them. -/
  | wrReg (c : Alg) (r : BitVec 6) (v : Word)
  /-- `rd <ch>.<REG>` (R110). -/
  | rdReg (c : Alg) (r : BitVec 6)
  deriving DecidableEq, Repr

/-- The channel an instruction acts on. -/
def Instr.channel : Instr → Alg
  | .nop c | .reset c | .ingest0 c | .ingest1 c | .ingest2 c | .ingest3 c | .ingest4 c | .finalize c
  | .wrData c _ | .wrReg c _ _ | .rdReg c _ => c

end Sys2Proof
end

