-- ==== Sys2Proof/WellFormed.lean ====
section
/-! DEFINITION. The well-formed instructions: those some access encodes. The checks are on `wr <ch>.<REG>` and
`rd <ch>.<REG>`, whose register offset is a multiple of 4 (20_memory.md R61). A write to DATA, and a write of a legal
command word to CMD, have rows of their own in the opcode table, so they are no well-formed `wrReg`. -/

namespace Sys2Proof

/-- The eight legal command words (30_encoding.md R84). -/
def legalCommandWords : List Word :=
  [0x00000000, 0x00000001, 0x00000002, 0x00000012, 0x00000022, 0x00000032, 0x00000042, 0x00000003]

/-- A register offset is a multiple of 4 (R61). -/
def offsetAligned (r : BitVec 6) : Bool := r.toNat % 4 == 0

/-- The check of an instruction. -/
def Instr.wellFormed : Instr → Bool
  | .nop _ => true
  | .reset _ => true
  | .ingest0 _ => true
  | .ingest1 _ => true
  | .ingest2 _ => true
  | .ingest3 _ => true
  | .ingest4 _ => true
  | .finalize _ => true
  | .wrData _ _ => true
  | .wrReg _ r v => offsetAligned r && r != 0x04 && !(r == 0x00 && legalCommandWords.contains v)
  | .rdReg _ r => offsetAligned r

/-- The instruction is well formed. -/
abbrev Instr.WellFormed (i : Instr) : Prop := i.wellFormed = true

end Sys2Proof
end

