-- ==== Sys2Proof/Decode.lean ====
section
/-! DEFINITION. Decoding a command word (30_encoding.md R80 to R87) and a host access (20_memory.md R60, R61;
40_hasher_commands.md R110, R111), and the encoder, written from the same tables. -/

namespace Sys2Proof

/-- What a command word selects (R84). -/
inductive Command where
  | nop
  | reset
  | ingest (nb : Fin 5)
  | finalize
  | reject
  deriving DecidableEq, Repr

/-- OP, bits [3:0] of a command word (R80, R81). -/
def opField (v : Word) : BitVec 4 := v.extractLsb' 0 4

/-- NB, bits [6:4] of a command word, not scaled (R80, R82). -/
def nbField (v : Word) : BitVec 3 := v.extractLsb' 4 3

/-- RSV, bits [31:7] of a command word (R80, R83). -/
def rsvField (v : Word) : BitVec 25 := v.extractLsb' 7 25

/-- The command decoder, total on every 32-bit word (R84). -/
def decodeCommand (v : Word) : Command :=
  if rsvField v ≠ 0 then .reject
  else if opField v = 0 ∧ nbField v = 0 then .nop
  else if opField v = 1 ∧ nbField v = 0 then .reset
  else if h : opField v = 2 ∧ (nbField v).toNat ≤ 4 then .ingest ⟨(nbField v).toNat, Nat.lt_succ_of_le h.2⟩
  else if opField v = 3 ∧ nbField v = 0 then .finalize
  else .reject

/-- The instruction of the opcode table a command stands for on channel c; none for a rejected word (R86, R89). -/
def Command.instr (c : Alg) : Command → Option Instr
  | .nop => some (.nop c)
  | .reset => some (.reset c)
  | .ingest nb =>
    match nb with
    | 0 => some (.ingest0 c)
    | 1 => some (.ingest1 c)
    | 2 => some (.ingest2 c)
    | 3 => some (.ingest3 c)
    | 4 => some (.ingest4 c)
  | .finalize => some (.finalize c)
  | .reject => none

/-- Why an access has no meaning (R61). -/
inductive DecodeError where
  /-- The access is not 4 bytes wide. -/
  | accessSize
  /-- The offset is not a multiple of 4. -/
  | misaligned
  deriving DecidableEq, Repr

/-- Offset bit 6 of a channel (R60, R110): 0 for MD5, 1 for SHA-1. -/
def channelBit : Alg → BitVec 1
  | .md5 => 0
  | .sha1 => 1

/-- The channel of a window offset: `off[6]` (R110). -/
def offsetChannel (off : BitVec 7) : Alg := if off.getLsbD 6 then .sha1 else .md5

/-- The register offset of a window offset: `off[5:0]` (R110). -/
def offsetRegister (off : BitVec 7) : BitVec 6 := off.extractLsb' 0 6

/-- The window offset of a register: `0x40*c + r` (R60, R88). -/
def windowOffset (c : Alg) (r : BitVec 6) : BitVec 7 := channelBit c ++ r

/-- The two conditions every access meets: 4 bytes, and an offset that is a multiple of 4 (R61). The width is looked
at first (log 4). -/
def checkAccess (off : BitVec 7) (bytes : Nat) : Option DecodeError :=
  if bytes ≠ 4 then some .accessSize
  else if off.toNat % 4 ≠ 0 then some .misaligned
  else none

/-- The instruction of an aligned 32-bit write (R111). The opcode table's own rows for a legal command word and for
DATA win over its row for a write of any register (log 10). -/
def decodeWrite (c : Alg) (r : BitVec 6) (v : Word) : Instr :=
  if r = 0x00 then ((decodeCommand v).instr c).getD (.wrReg c r v)
  else if r = 0x04 then .wrData c v
  else .wrReg c r v

/-- The access decoder, total on every access. -/
def decode : Access → Except DecodeError Instr
  | .read off bytes =>
    match checkAccess off bytes with
    | some e => .error e
    | none => .ok (.rdReg (offsetChannel off) (offsetRegister off))
  | .write off bytes v =>
    match checkAccess off bytes with
    | some e => .error e
    | none => .ok (decodeWrite (offsetChannel off) (offsetRegister off) v)

/-- A command word from its fields (R80): OP in [3:0], NB in [6:4], RSV = 0. -/
def commandWord (op : BitVec 4) (nb : BitVec 3) : Word := (0 : BitVec 25) ++ nb ++ op

/-- A 32-bit write of channel c's CMD register (R89). -/
def encodeCommand (c : Alg) (op : BitVec 4) (nb : BitVec 3) : Access :=
  .write (windowOffset c 0x00) 4 (commandWord op nb)

/-- The encoder: the access an instruction stands for (R88, R89). -/
def encode : Instr → Access
  | .nop c => encodeCommand c 0x0 0
  | .reset c => encodeCommand c 0x1 0
  | .ingest0 c => encodeCommand c 0x2 0
  | .ingest1 c => encodeCommand c 0x2 1
  | .ingest2 c => encodeCommand c 0x2 2
  | .ingest3 c => encodeCommand c 0x2 3
  | .ingest4 c => encodeCommand c 0x2 4
  | .finalize c => encodeCommand c 0x3 0
  | .wrData c v => .write (windowOffset c 0x04) 4 v
  | .wrReg c r v => .write (windowOffset c r) 4 v
  | .rdReg c r => .read (windowOffset c r) 4

/-- The access that `nbits` bits of a row of spec/opcode_table.json stand for (log 9). A row of 9 to 32 bits is a
command word, and the access writes it to CMD of channel 0. Any other row is a host access: bits 6:0 are the window
offset (bit 6 the channel, bits 5:0 the register, as the table numbers them), bit 7 is 1 for a read, and the value
written, which the table gives no bits, is bits 39:8. -/
def tableAccess (nbits w : Nat) : Access :=
  if 8 < nbits ∧ nbits ≤ 32 then .write (windowOffset .md5 0x00) 4 (BitVec.ofNat 32 w)
  else if w.testBit 7 then .read (BitVec.ofNat 7 w) 4
  else .write (BitVec.ofNat 7 w) 4 (BitVec.ofNat 32 (w / 256))

/-- The instruction the decoder reads from an instruction of the opcode table whose bits are w. -/
def decodeTableWord (nbits w : Nat) : Option Instr :=
  match decode (tableAccess nbits w) with
  | .ok i => some i
  | .error _ => none

end Sys2Proof
end

