-- ==== Sys2Proof/Machine/Rom.lean ====
section
/-! DEFINITION. The read-only constant tables of the core (10_state.md R34): initial hash values, the MD5 step
schedule (42_md5_compressor.md R173 to R175, R179) and the SHA-1 round constants (43_sha1_compressor.md R215).
The spec marks most of these values as general knowledge that its own vectors check (G1 to G4, log 11). -/

namespace Sys2Proof.Machine

/-- The initial value of H (R21), by algorithm. -/
def initialHash : (alg : Alg) → Vector Word alg.hashWords
  | .md5 => #v[0x67452301, 0xefcdab89, 0x98badcfe, 0x10325476]
  | .sha1 => #v[0x67452301, 0xefcdab89, 0x98badcfe, 0x10325476, 0xc3d2e1f0]

/-- T[1..16], the additive constants of MD5 round 1 (R173, R179). -/
def md5ConstantsRound1 : List Word :=
  [0xd76aa478, 0xe8c7b756, 0x242070db, 0xc1bdceee, 0xf57c0faf, 0x4787c62a, 0xa8304613, 0xfd469501,
   0x698098d8, 0x8b44f7af, 0xffff5bb1, 0x895cd7be, 0x6b901122, 0xfd987193, 0xa679438e, 0x49b40821]

/-- T[17..32], the additive constants of MD5 round 2 (R173, R179). -/
def md5ConstantsRound2 : List Word :=
  [0xf61e2562, 0xc040b340, 0x265e5a51, 0xe9b6c7aa, 0xd62f105d, 0x02441453, 0xd8a1e681, 0xe7d3fbc8,
   0x21e1cde6, 0xc33707d6, 0xf4d50d87, 0x455a14ed, 0xa9e3e905, 0xfcefa3f8, 0x676f02d9, 0x8d2a4c8a]

/-- T[33..48], the additive constants of MD5 round 3 (R173, R179). -/
def md5ConstantsRound3 : List Word :=
  [0xfffa3942, 0x8771f681, 0x6d9d6122, 0xfde5380c, 0xa4beea44, 0x4bdecfa9, 0xf6bb4b60, 0xbebfbc70,
   0x289b7ec6, 0xeaa127fa, 0xd4ef3085, 0x04881d05, 0xd9d4d039, 0xe6db99e5, 0x1fa27cf8, 0xc4ac5665]

/-- T[49..64], the additive constants of MD5 round 4 (R173, R179). -/
def md5ConstantsRound4 : List Word :=
  [0xf4292244, 0x432aff97, 0xab9423a7, 0xfc93a039, 0x655b59c3, 0x8f0ccc92, 0xffeff47d, 0x85845dd1,
   0x6fa87e4f, 0xfe2ce6e0, 0xa3014314, 0x4e0811a1, 0xf7537e82, 0xbd3af235, 0x2ad7d2bb, 0xeb86d391]

/-- T[1..64], the additive constant of step i at position i (R173: step i uses T[i+1]). -/
def md5Constants : List Word :=
  md5ConstantsRound1 ++ md5ConstantsRound2 ++ md5ConstantsRound3 ++ md5ConstantsRound4

/-- T[i+1], the additive constant of step i, for i in 0..63 (R173). -/
def md5Constant (i : Nat) : Word := md5Constants.getD i 0

/-- s(i), the left rotation of step i: `S_r[i mod 4]` with r = floor(i/16) (R174). -/
def md5Rotation (i : Nat) : Nat :=
  match i / 16 with
  | 0 => [7, 12, 17, 22].getD (i % 4) 0
  | 1 => [5, 9, 14, 20].getD (i % 4) 0
  | 2 => [4, 11, 16, 23].getD (i % 4) 0
  | _ => [6, 10, 15, 21].getD (i % 4) 0

/-- k(i), the message register step i consumes (R175), with r = floor(i/16) and j = i mod 16. -/
def md5WordIndex (i : Nat) : Nat :=
  match i / 16 with
  | 0 => i % 16
  | 1 => (1 + 5 * (i % 16)) % 16
  | 2 => (5 + 3 * (i % 16)) % 16
  | _ => (7 * (i % 16)) % 16

/-- K_r, the round constant of SHA-1 step t, r = floor(t/20) (R215, R216). -/
def sha1Constant (t : Nat) : Word :=
  match t / 20 with
  | 0 => 0x5a827999
  | 1 => 0x6ed9eba1
  | 2 => 0x8f1bbcdc
  | _ => 0xca62c1d6

end Sys2Proof.Machine
end

