-- ==== Sys2Proof/Machine/State.lean ====
section
/-! DEFINITION. The state of the core (10_state.md R20), its reset value (70_reset_and_hazards.md R270), and the ways
a step can stop. All of it is plain data. -/

namespace Sys2Proof.Machine

/-- One channel (R20): the hasher's state, its compressor's working registers (R33), and two counts that are the
model's own. -/
structure Channel (alg : Alg) where
  /-- H, the hash state (R21). -/
  h : Vector Word alg.hashWords
  /-- COUNT, the byte counter: bytes already compressed (R22). -/
  count : DWord
  /-- BUF, the partial-block buffer, oldest byte first (R23). -/
  buf : List Byte
  /-- DATA, the operand register of INGEST (R24). -/
  data : Word
  /-- DV, digest valid (R25). -/
  dv : Bool
  /-- ERR, the sticky command error (R26). -/
  err : Bool
  /-- DIGEST[0..4], the digest output registers (R27). -/
  digest : Vector Word 5
  /-- The compressor's working registers between commands (R33): unspecified, and read by no rule (log 7). -/
  regs : CompressorRegs alg
  /-- The model's own: how often `regs` was left unspecified; the index of its free value (log 7). -/
  unitUses : Nat
  /-- The model's own: bytes absorbed since RESET, the "model bookkeeping" of 41_padding_digest.md R146 (log 6). -/
  absorbed : Nat
  deriving DecidableEq, Repr

/-- The machine: two channels that share nothing (R20), the parameter LEN_OVERFLOW, and the register port. -/
structure State where
  /-- Channel 0 (R3). -/
  md5 : Channel .md5
  /-- Channel 1 (R3). -/
  sha1 : Channel .sha1
  /-- The parameter LEN_OVERFLOW (00_scope.md R7); nothing writes it (log 5). -/
  lenOverflow : LenOverflow
  /-- The host accesses that wait at the port, in port order (20_memory.md R73; log 1). -/
  pending : List Access
  /-- What the latest access returned to the host: the value of a read (40_hasher_commands.md R110; log 2). -/
  response : Option Word
  deriving DecidableEq, Repr

/-- The core raises no exception and has no trap mechanism (60_exceptions.md R250, R254): there is no fault. -/
inductive Fault : Type
  deriving DecidableEq, Repr

/-- Why a step has no meaning. -/
inductive Refusal where
  /-- An instruction whose arm of `exec` has no meaning yet; raised by `exec` only. Safe. -/
  | notModelled (mnemonic : String)
  /-- An access that is not 4 bytes wide; raised by `step`. The spec refuses it (20_memory.md R61). Safe. -/
  | accessSize
  /-- An access at an offset that is no multiple of 4; raised by `step`, and by `execWrReg` and `execRdReg` on an
  offset no decoded access has. The spec refuses it (R61). Safe. -/
  | misaligned
  /-- FINALIZE of a message of 2^61 bytes or more when LEN_OVERFLOW = refuse; raised by `finalize`. The spec
  refuses it (41_padding_digest.md R146). Safe. -/
  | lengthOverflow
  /-- No access waits at the port; raised by `step`. A wait is no step (70_reset_and_hazards.md R280). Safe. -/
  | noAccess
  deriving DecidableEq, Repr

/-- The compressor registers right after power-on: unspecified by R33 and R270, zero in the model (log 7). -/
def powerOnRegs (alg : Alg) : CompressorRegs alg :=
  { vars := Vector.replicate alg.hashWords 0, words := Vector.replicate alg.messageWords 0, counter := 0 }

/-- A channel right after power-on reset (R20, R270). -/
def Channel.powerOn (alg : Alg) : Channel alg :=
  { h := initialHash alg
    count := 0
    buf := []
    data := 0
    dv := false
    err := false
    digest := #v[0, 0, 0, 0, 0]
    regs := powerOnRegs alg
    unitUses := 0
    absorbed := 0 }

/-- The machine right after power-on reset (R270), with the default LEN_OVERFLOW (R7) and no access waiting. -/
def State.reset : State :=
  { md5 := Channel.powerOn .md5
    sha1 := Channel.powerOn .sha1
    lenOverflow := .wrap
    pending := []
    response := none }

end Sys2Proof.Machine
end

