-- ==== Sys2Proof/Machine/Flags.lean ====
section
/-! DEFINITION. The flags of a channel and the STATUS word (10_state.md R25, R26, R38). DV and ERR are the only flags
of the core (40_hasher_commands.md, preamble). -/

namespace Sys2Proof.Machine

/-- A flag as a 32-bit word: `zext_32` of one bit (R8). -/
def flagWord (b : Bool) : Word := if b then 1 else 0

/-- ALG, hardwired: 0 for MD5, 1 for SHA-1 (R28). -/
def algWord : Alg → Word
  | .md5 => 0
  | .sha1 => 1

/-- STATUS (R38): DV in bit 0, ERR in bit 1, BUFLEN in bits 13:8, ALG in bit 16. A BUF
of 64 bytes or more is unreachable (log 15). -/
def Channel.status {alg : Alg} (ch : Channel alg) : Word :=
  flagWord ch.dv ||| (flagWord ch.err <<< 1) ||| (BitVec.ofNat 32 ch.buf.length <<< 8) ||| (algWord alg <<< 16)

/-- DV after an INGEST of n bytes: cleared by one byte or more (R25, R103). -/
def dvAfterIngest (n : Nat) (dv : Bool) : Bool := if 1 ≤ n then false else dv

end Sys2Proof.Machine
end

