-- ==== Sys2Proof/Machine/Bytes.lean ====
section
/-! DEFINITION. Word operators and byte sequences (00_scope.md R9, R10): rotation, little- and big-endian words. -/

namespace Sys2Proof.Machine

/-- `rotl(a, n)` for 0 <= n < 32 (R9). -/
def rotl (a : Word) (n : Nat) : Word := (a <<< n) ||| (a >>> (32 - n))

/-- `b[i]`, byte i of a byte sequence (R10); 0 past its end, which no rule reads (log 8). -/
def byteAt (b : List Byte) (i : Nat) : Byte := b.getD i 0

/-- `le32(b, o)` (R10): byte o is least significant. -/
def le32 (b : List Byte) (o : Nat) : Word :=
  (byteAt b o).setWidth 32 ||| ((byteAt b (o + 1)).setWidth 32 <<< 8)
    ||| ((byteAt b (o + 2)).setWidth 32 <<< 16) ||| ((byteAt b (o + 3)).setWidth 32 <<< 24)

/-- `be32(b, o)` (R10): byte o is most significant. -/
def be32 (b : List Byte) (o : Nat) : Word :=
  ((byteAt b o).setWidth 32 <<< 24) ||| ((byteAt b (o + 1)).setWidth 32 <<< 16)
    ||| ((byteAt b (o + 2)).setWidth 32 <<< 8) ||| (byteAt b (o + 3)).setWidth 32

/-- Byte lane j of a value: bits [8j+7:8j]. -/
def lane {n : Nat} (v : BitVec n) (j : Nat) : Byte := v.extractLsb' (8 * j) 8

/-- `le_bytes32(w)` (R10): least significant byte first. -/
def leBytes32 (w : Word) : List Byte := [lane w 0, lane w 1, lane w 2, lane w 3]

/-- `be_bytes32(w)` (R10): most significant byte first. -/
def beBytes32 (w : Word) : List Byte := [lane w 3, lane w 2, lane w 1, lane w 0]

/-- `le64(v)` (R10): the 8 bytes of v, least significant first. -/
def le64 (v : DWord) : List Byte :=
  [lane v 0, lane v 1, lane v 2, lane v 3, lane v 4, lane v 5, lane v 6, lane v 7]

/-- `be64(v)` (R10): the 8 bytes of v, most significant first. -/
def be64 (v : DWord) : List Byte :=
  [lane v 7, lane v 6, lane v 5, lane v 4, lane v 3, lane v 2, lane v 1, lane v 0]

/-- `zeros(n)` (R10). -/
def zeros (n : Nat) : List Byte := List.replicate n 0

/-- Bytes `64j` to `64j + 63` of a byte sequence (41_padding_digest.md R147). -/
def blockAt (b : List Byte) (j : Nat) : List Byte := (b.drop (64 * j)).take 64

end Sys2Proof.Machine
end

