-- ==== Sys2Proof/Machine/Operands.lean ====
section
/-! DEFINITION. The operands of an INGEST: the byte lanes of DATA (20_memory.md R65). -/

namespace Sys2Proof.Machine

/-- `bytes(DATA, NB)` (R65): the first nb byte lanes, lane 0 first. -/
def dataBytes (data : Word) (nb : Nat) : List Byte := (List.range nb).map fun j => lane data j

end Sys2Proof.Machine
end

