-- ==== Sys2Proof/Machine/Md5.lean ====
section
/-! DEFINITION. The MD5 compression core (42_md5_compressor.md): bitwise functions, round scheduling, state mixing. -/

namespace Sys2Proof.Machine

/-- `F(x, y, z)`, round 1 (R172). -/
def md5F (x y z : Word) : Word := (x &&& y) ||| (~~~x &&& z)

/-- `G(x, y, z)`, round 2 (R172). -/
def md5G (x y z : Word) : Word := (x &&& z) ||| (y &&& ~~~z)

/-- `H(x, y, z)`, round 3 (R172). -/
def md5H (x y z : Word) : Word := x ^^^ y ^^^ z

/-- `I(x, y, z)`, round 4 (R172). -/
def md5I (x y z : Word) : Word := y ^^^ (x ||| ~~~z)

/-- `fn_r` of step i, r = floor(i/16) = i[5:4] (R176). -/
def md5Function (i : Nat) (x y z : Word) : Word :=
  match i / 16 with
  | 0 => md5F x y z
  | 1 => md5G x y z
  | 2 => md5H x y z
  | _ => md5I x y z

/-- The working variables (10_state.md R33). They live inside a compression only. -/
structure Md5Vars where
  a : Word
  b : Word
  c : Word
  d : Word
  deriving DecidableEq, Repr

/-- The message registers X[0..15] of a block (R171, 20_memory.md R66). -/
def md5Words (blk : List Byte) : List Word := (List.range 16).map fun k => le32 blk (4 * k)

/-- Step i, state mixing (R177). -/
def md5Step (x : List Word) (v : Md5Vars) (i : Nat) : Md5Vars :=
  { a := v.d
    b := v.b + rotl (v.a + md5Function i v.b v.c v.d + x.getD (md5WordIndex i) 0 + md5Constant i) (md5Rotation i)
    c := v.b
    d := v.c }

/-- The working variables after the first n steps (R176: steps 0, 1, 2, ... in order). -/
def md5Steps (x : List Word) (v : Md5Vars) (n : Nat) : Md5Vars := (List.range n).foldl (md5Step x) v

/-- The working variables a compression starts from (R178). -/
def md5Load (h : Vector Word 4) : Md5Vars := ⟨h[0], h[1], h[2], h[3]⟩

/-- `MD5Compress(H, blk)` (R178): 64 steps, then the final addition. -/
def md5Compress (h : Vector Word 4) (blk : List Byte) : Vector Word 4 :=
  let v := md5Steps (md5Words blk) (md5Load h) 64
  #v[h[0] + v.a, h[1] + v.b, h[2] + v.c, h[3] + v.d]

end Sys2Proof.Machine
end

