-- ==== Sys2Proof/Machine/Sha1.lean ====
section
/-! DEFINITION. The SHA-1 compression core (43_sha1_compressor.md): message schedule, round functions, state mixing. -/

namespace Sys2Proof.Machine

/-- `Ch(b, c, d)`, round 1 (R214). -/
def sha1Ch (b c d : Word) : Word := (b &&& c) ||| (~~~b &&& d)

/-- `Parity(b, c, d)`, rounds 2 and 4 (R214). -/
def sha1Parity (b c d : Word) : Word := b ^^^ c ^^^ d

/-- `Maj(b, c, d)`, round 3 (R214). -/
def sha1Maj (b c d : Word) : Word := (b &&& c) ||| (b &&& d) ||| (c &&& d)

/-- `f_r` of step t, r = floor(t/20) (R216). -/
def sha1Function (t : Nat) (b c d : Word) : Word :=
  match t / 20 with
  | 0 => sha1Ch b c d
  | 1 => sha1Parity b c d
  | 2 => sha1Maj b c d
  | _ => sha1Parity b c d

/-- The working variables (10_state.md R33). They live inside a compression only. -/
structure Sha1Vars where
  a : Word
  b : Word
  c : Word
  d : Word
  e : Word
  deriving DecidableEq, Repr

/-- The message words W[0..15] of a block (R211, 20_memory.md R67). -/
def sha1Words (blk : List Byte) : List Word := (List.range 16).map fun k => be32 blk (4 * k)

/-- W[t] from the t words before it, for t >= 16 (R212). -/
def sha1NextWord (w : List Word) : Word :=
  let t := w.length
  rotl (w.getD (t - 3) 0 ^^^ w.getD (t - 8) 0 ^^^ w.getD (t - 14) 0 ^^^ w.getD (t - 16) 0) 1

/-- The schedule after n expansion steps (R212): each appends the next word. -/
def sha1Expand (w : List Word) : Nat → List Word
  | 0 => w
  | n + 1 => let w' := sha1Expand w n; w' ++ [sha1NextWord w']

/-- The schedule W[0..79] of a block (R211, R212). -/
def sha1Schedule (blk : List Byte) : List Word := sha1Expand (sha1Words blk) 64

/-- Step t, state mixing, on the schedule word `wt` = W[t] (R217). -/
def sha1Mix (v : Sha1Vars) (t : Nat) (wt : Word) : Sha1Vars :=
  { a := rotl v.a 5 + sha1Function t v.b v.c v.d + v.e + wt + sha1Constant t
    b := v.a
    c := rotl v.b 30
    d := v.c
    e := v.d }

/-- The working variables after the first n steps (R216: steps 0, 1, 2, ... in order). -/
def sha1Steps (w : List Word) (v : Sha1Vars) (n : Nat) : Sha1Vars :=
  (List.range n).foldl (fun v t => sha1Mix v t (w.getD t 0)) v

/-- The working variables a compression starts from (R218). -/
def sha1Load (h : Vector Word 5) : Sha1Vars := ⟨h[0], h[1], h[2], h[3], h[4]⟩

/-- The final addition (R218). -/
def sha1Add (h : Vector Word 5) (v : Sha1Vars) : Vector Word 5 :=
  #v[h[0] + v.a, h[1] + v.b, h[2] + v.c, h[3] + v.d, h[4] + v.e]

/-- `SHA1Compress(H, blk)` (R218): the schedule, 80 steps, then the final addition. -/
def sha1Compress (h : Vector Word 5) (blk : List Byte) : Vector Word 5 :=
  sha1Add h (sha1Steps (sha1Schedule blk) (sha1Load h) 80)

/-- One step of the rolling-window form (R213): from step 16 on, slot `t mod 16` of the 16 registers Q is replaced
by W[t] before the step uses it. -/
def sha1RollingStep (qv : List Word × Sha1Vars) (t : Nat) : List Word × Sha1Vars :=
  let q := qv.1
  let q' :=
    if t < 16 then q
    else q.set (t % 16) (rotl (q.getD ((t - 3) % 16) 0 ^^^ q.getD ((t - 8) % 16) 0
      ^^^ q.getD ((t - 14) % 16) 0 ^^^ q.getD (t % 16) 0) 1)
  (q', sha1Mix qv.2 t (q'.getD (t % 16) 0))

/-- SHA1Compress by the 16-word rolling schedule (R213, R219), the structure the spec offers as an equivalent one. -/
def sha1CompressRolling (h : Vector Word 5) (blk : List Byte) : Vector Word 5 :=
  sha1Add h ((List.range 80).foldl sha1RollingStep (sha1Words blk, sha1Load h)).2

end Sys2Proof.Machine
end

