-- ==== Sys2Proof/Machine/Padding.lean ====
section
/-! DEFINITION. The padding engine, final-block assembly and digest (41_padding_digest.md), for both algorithms.
Each function takes the parts of the channel it reads: H, BUF and COUNT. -/

namespace Sys2Proof.Machine

/-- `Compress_ch(H, blk)` (00_scope.md R11): the channel's own compressor. -/
def compress : (alg : Alg) → Vector Word alg.hashWords → List Byte → Vector Word alg.hashWords
  | .md5 => md5Compress
  | .sha1 => sha1Compress

/-- `BitLen` of a channel with that COUNT and n buffered bytes (R144): modulo 2^64 twice. -/
def bitLen (count : DWord) (n : Nat) : DWord := BitVec.ofNat 64 (8 * ((count.toNat + n) % 2 ^ 64))

/-- `LenField_ch(L)` (R140, 20_memory.md R68). -/
def lenField : Alg → DWord → List Byte
  | .md5 => le64
  | .sha1 => be64

/-- `z = (55 - n) mod 64`, the number of zero bytes after the marker (R140, R142). -/
def padZeros (n : Nat) : Nat := ((55 - (n : Int)) % 64).toNat

/-- `Pad(ch)` (R140): the marker 0x80, z zeros, the length field. -/
def pad (alg : Alg) (buf : List Byte) (count : DWord) : List Byte :=
  [0x80] ++ zeros (padZeros buf.length) ++ lenField alg (bitLen count buf.length)

/-- The final data `BUF ‖ Pad` (R140): 64 or 128 bytes. -/
def finalData (alg : Alg) (buf : List Byte) (count : DWord) : List Byte := buf ++ pad alg buf count

/-- A hash state compressed with the n first blocks of a byte sequence, block 0 first (R147). -/
def compressBlocks (alg : Alg) (h : Vector Word alg.hashWords) (b : List Byte) (n : Nat) : Vector Word alg.hashWords :=
  (List.range n).foldl (fun hs j => compress alg hs (blockAt b j)) h

/-- `FinalHash(ch)` (R147): the final data's blocks compressed into a scratch copy of H. -/
def finalHash (alg : Alg) (h : Vector Word alg.hashWords) (buf : List Byte) (count : DWord) :
    Vector Word alg.hashWords :=
  let f := finalData alg buf count
  compressBlocks alg h f (f.length / 64)

/-- `Serialise_ch(H')` (20_memory.md R69): 16 or 20 bytes. -/
def serialise : (alg : Alg) → Vector Word alg.hashWords → List Byte
  | .md5, h => h.toList.flatMap leBytes32
  | .sha1, h => h.toList.flatMap beBytes32

/-- `Digest(ch)` (R147). -/
def digestBytesOf (alg : Alg) (h : Vector Word alg.hashWords) (buf : List Byte) (count : DWord) : List Byte :=
  serialise alg (finalHash alg h buf count)

/-- The DIGEST registers of a digest (20_memory.md R70, 40_hasher_commands.md R107): `le32(d ‖ zeros(20 - len(d)), 4k)`. -/
def packDigest (d : List Byte) : Vector Word 5 :=
  let p := d ++ zeros (20 - d.length)
  #v[le32 p 0, le32 p 4, le32 p 8, le32 p 12, le32 p 16]

end Sys2Proof.Machine
end

