-- ==== Sys2Proof/Machine/Ops.lean ====
section
/-! DEFINITION. The shared operations over a channel and over the machine: absorbing bytes, finalising, resetting,
rejecting a command word, reading a register, and what the world outside does to the port. -/

namespace Sys2Proof.Machine

namespace Channel

variable {alg : Alg}

/-- The compressor was used: its working registers now hold a free value (10_state.md R33, log 7). -/
def useUnit (ch : Channel alg) : Channel alg :=
  { ch with regs := Config.unspecifiedRegs alg ch.unitUses, unitUses := ch.unitUses + 1 }

/-- The flush of a full buffer (40_hasher_commands.md R104): compress, count 64 bytes modulo 2^64, empty BUF. -/
def flush (ch : Channel alg) : Channel alg :=
  { ch.useUnit with h := compress alg ch.h ch.buf, count := ch.count + 64, buf := [] }

/-- `AbsorbByte(ch, x)` (R104): append one byte, and flush a completed block at once. -/
def absorbByte (ch : Channel alg) (x : Byte) : Channel alg :=
  let ch' := { ch with buf := ch.buf ++ [x], absorbed := ch.absorbed + 1 }
  if ch'.buf.length = 64 then ch'.flush else ch'

/-- AbsorbByte over a byte sequence, in order (R103). -/
def absorb (ch : Channel alg) (bs : List Byte) : Channel alg := bs.foldl absorbByte ch

/-- INGEST nb on a channel (R103): the first nb lanes of DATA, then DV. -/
def ingest (ch : Channel alg) (nb : Nat) : Channel alg :=
  let ch' := ch.absorb (dataBytes ch.data nb)
  { ch' with dv := dvAfterIngest nb ch'.dv }

/-- The digest of the channel as FINALIZE computes it (R107, 41_padding_digest.md R147). -/
def finalDigest (ch : Channel alg) : Vector Word 5 := packDigest (digestBytesOf alg ch.h ch.buf ch.count)

/-- FINALIZE on a channel (R107): DIGEST and DV; the message state is untouched (R108). -/
def finalize (ch : Channel alg) : Channel alg :=
  { ch.useUnit with digest := ch.finalDigest, dv := true }

/-- RESET on a channel (R102): every element but DATA takes its power-on value (70_reset_and_hazards.md R272). The
compressor's registers are no element R102 names, and stay. -/
def reset (ch : Channel alg) : Channel alg :=
  { ch with
    h := initialHash alg
    count := 0
    buf := []
    dv := false
    err := false
    digest := #v[0, 0, 0, 0, 0]
    absorbed := 0 }

/-- A rejected command word (30_encoding.md R86, 60_exceptions.md R254): ERR is set and nothing else changes. This is
all the core has in place of taking an exception; only RESET undoes it (R255). -/
def reject (ch : Channel alg) : Channel alg := { ch with err := true }

/-- A write of DATA (R109). -/
def writeData (ch : Channel alg) (v : Word) : Channel alg := { ch with data := v }

/-- The value of the register at offset r (R110; 10_state.md R36 to R41). -/
def readRegister (ch : Channel alg) (r : BitVec 6) : Word :=
  match r.toNat with
  | 0x00 => 0
  | 0x04 => ch.data
  | 0x08 => ch.status
  | 0x0C => ch.count.extractLsb' 0 32
  | 0x10 => ch.count.extractLsb' 32 32
  | 0x20 => ch.digest[0]
  | 0x24 => ch.digest[1]
  | 0x28 => ch.digest[2]
  | 0x2C => ch.digest[3]
  | 0x30 => ch.digest[4]
  | _ => 0

end Channel

namespace State

/-- The channel of an algorithm. -/
def chan (s : State) : (c : Alg) → Channel c
  | .md5 => s.md5
  | .sha1 => s.sha1

/-- The machine with one channel replaced; the other is untouched (R118). -/
def setChan (s : State) : (c : Alg) → Channel c → State
  | .md5, ch => { s with md5 := ch }
  | .sha1, ch => { s with sha1 := ch }

/-- `RegRead(off)` as a function of the state (R110). -/
def readWindow (s : State) (off : BitVec 7) : Word :=
  (s.chan (offsetChannel off)).readRegister (offsetRegister off)

/-- Power-on reset (70_reset_and_hazards.md R270), or the return of power after its loss (60_exceptions.md R261): both
channels take their power-on value and nothing waits at the port (log 14). An event from outside the core, so no
step. -/
def powerOn (s : State) : State := { State.reset with lenOverflow := s.lenOverflow }

/-- A host access on the platform's bus: one inside the window joins the port's order, one outside never reaches the
core (20_memory.md R60, R73; log 3). An event from outside the core, so no step. -/
def present (s : State) (addr : Nat) (access : BitVec 7 → Access) : State :=
  if Config.base ≤ addr ∧ addr < Config.base + Config.windowBytes then
    { s with pending := s.pending ++ [access (BitVec.ofNat 7 (addr - Config.base))] }
  else s

end State

/-- INGEST nb on channel c (R103). -/
def ingest (nb : Nat) (c : Alg) (s : State) : Host.Outcome State Fault Refusal :=
  .next (s.setChan c ((s.chan c).ingest nb))

/-- FINALIZE is refused: LEN_OVERFLOW = refuse and 2^61 bytes or more were absorbed since RESET
(41_padding_digest.md R146). -/
def finalizeRefused (c : Alg) (s : State) : Bool :=
  s.lenOverflow == .refuse && decide (Config.lengthLimit ≤ (s.chan c).absorbed)

end Sys2Proof.Machine
end

