-- ==== Sys2Proof/Machine/Commands.lean ====
section
/-! DEFINITION. The commands: NOP, RESET, INGEST 0 to 4, FINALIZE (40_hasher_commands.md R101 to R108). -/

namespace Sys2Proof.Machine

/-- NOP: no state changes (R101). -/
def execNop (_c : Alg) (s : State) : Host.Outcome State Fault Refusal := .next s

/-- RESET (R102). -/
def execReset (c : Alg) (s : State) : Host.Outcome State Fault Refusal :=
  .next (s.setChan c (s.chan c).reset)

/-- INGEST 0 (R103, R106). -/
def execIngest0 (c : Alg) (s : State) : Host.Outcome State Fault Refusal := ingest 0 c s

/-- INGEST 1 (R103): DATA[7:0]. -/
def execIngest1 (c : Alg) (s : State) : Host.Outcome State Fault Refusal := ingest 1 c s

/-- INGEST 2 (R103): DATA[7:0], DATA[15:8]. -/
def execIngest2 (c : Alg) (s : State) : Host.Outcome State Fault Refusal := ingest 2 c s

/-- INGEST 3 (R103): DATA[7:0], DATA[15:8], DATA[23:16]. -/
def execIngest3 (c : Alg) (s : State) : Host.Outcome State Fault Refusal := ingest 3 c s

/-- INGEST 4 (R103): the four lanes of DATA. -/
def execIngest4 (c : Alg) (s : State) : Host.Outcome State Fault Refusal := ingest 4 c s

/-- FINALIZE (R107), within the bound of LEN_OVERFLOW (41_padding_digest.md R146). -/
def execFinalize (c : Alg) (s : State) : Host.Outcome State Fault Refusal :=
  if finalizeRefused c s then .refused .lengthOverflow
  else .next (s.setChan c (s.chan c).finalize)

end Sys2Proof.Machine
end

