-- ==== Sys2Proof/Machine/Accesses.lean ====
section
/-! DEFINITION. The register accesses: writing DATA, writing any register, reading any register
(40_hasher_commands.md R100, R109 to R111). -/

namespace Sys2Proof.Machine

/-- A write of DATA (R109). -/
def execWrData (c : Alg) (v : Word) (s : State) : Host.Outcome State Fault Refusal :=
  .next (s.setChan c ((s.chan c).writeData v))

/-- A command word written to CMD (R100). ERR does not gate it (R119). -/
def executeCommand (c : Alg) (v : Word) (s : State) : Host.Outcome State Fault Refusal :=
  match decodeCommand v with
  | .nop => execNop c s
  | .reset => execReset c s
  | .ingest nb => ingest nb c s
  | .finalize => execFinalize c s
  | .reject => .next (s.setChan c (s.chan c).reject)

/-- A write of any register (R111): CMD executes, DATA stores, every other offset is ignored (10_state.md R41). No
decoded access has a misaligned offset (log 13). -/
def execWrReg (c : Alg) (r : BitVec 6) (v : Word) (s : State) : Host.Outcome State Fault Refusal :=
  if offsetAligned r then
    if r = 0x00 then executeCommand c v s
    else if r = 0x04 then execWrData c v s
    else .next s
  else .refused .misaligned

/-- A read of any register (R110): the port returns its value, and no channel changes (20_memory.md R62). -/
def execRdReg (c : Alg) (r : BitVec 6) (s : State) : Host.Outcome State Fault Refusal :=
  if offsetAligned r then .next { s with response := some ((s.chan c).readRegister r) }
  else .refused .misaligned

end Sys2Proof.Machine
end

