-- ==== Sys2Proof/Machine/Dispatch.lean ====
section
/-! DEFINITION. Which meaning each instruction has (40_hasher_commands.md R100, R110, R111): one arm per row of the
opcode table. -/

namespace Sys2Proof.Machine

/-- The meaning of an instruction. -/
def exec (i : Instr) (s : State) : Host.Outcome State Fault Refusal :=
  match i with
  | .nop c => Sys2Proof.Machine.execNop c s
  | .reset c => Sys2Proof.Machine.execReset c s
  | .ingest0 c => Sys2Proof.Machine.execIngest0 c s
  | .ingest1 c => Sys2Proof.Machine.execIngest1 c s
  | .ingest2 c => Sys2Proof.Machine.execIngest2 c s
  | .ingest3 c => Sys2Proof.Machine.execIngest3 c s
  | .ingest4 c => Sys2Proof.Machine.execIngest4 c s
  | .finalize c => Sys2Proof.Machine.execFinalize c s
  | .wrData c v => Sys2Proof.Machine.execWrData c v s
  | .wrReg c r v => Sys2Proof.Machine.execWrReg c r v s
  | .rdReg c r => Sys2Proof.Machine.execRdReg c r s

end Sys2Proof.Machine
end

