-- ==== Sys2Proof/Machine/Fetch.lean ====
section
/-! DEFINITION. Taking the next access from the port (20_memory.md R73). The core fetches no instructions (10_state.md
R32): the order of its accesses is the order in which the port received them. -/

namespace Sys2Proof.Machine

/-- The machine once the port's oldest access has been taken: the rest still waits, and nothing has been returned to
the host for it yet (log 1, log 2). -/
def takeAccess (rest : List Access) (s : State) : State := { s with pending := rest, response := none }

/-- The refusal of an access that has no meaning (R61). -/
def refusalOf : DecodeError → Refusal
  | .accessSize => .accessSize
  | .misaligned => .misaligned

end Sys2Proof.Machine
end

