-- ==== Sys2Proof/Machine/Step.lean ====
section
/-! DEFINITION. One step: the oldest waiting access is decoded and takes its whole effect (20_memory.md R72, R73). -/

namespace Sys2Proof.Machine

/-- One step of the core: one host access. With no access there is no step (70_reset_and_hazards.md R280). -/
def step (s : State) : Host.Outcome State Fault Refusal :=
  match s.pending with
  | [] => .refused .noAccess
  | a :: rest =>
    match decode a with
    | .error e => .refused (refusalOf e)
    | .ok i => exec i (takeAccess rest s)

/-- The machine with an instruction of the opcode table, given by its bits, placed at the head of the port, where the
next step takes it (log 1, log 9). -/
def State.withFetchWord (s : State) (nbits w : Nat) : State :=
  { s with pending := tableAccess nbits w :: s.pending }

end Sys2Proof.Machine
end

