-- ==== Sys2Proof/Machine/CompressorPort.lean ====
section
/-! DEFINITION. The ports of the two compressors as hardware sub-blocks (42_md5_compressor.md R170,
43_sha1_compressor.md R210): bit vectors in, a bit vector out. No access reaches them; the channels call `compress`. -/

namespace Sys2Proof.Machine

/-- Words side by side, word j in bits [32j+31:32j]. -/
def packWords : List Word → Nat
  | [] => 0
  | w :: ws => w.toNat + 2 ^ 32 * packWords ws

/-- Bytes side by side, byte m in bits [8m+7:8m]. -/
def packBytes : List Byte → Nat
  | [] => 0
  | b :: bs => b.toNat + 2 ^ 8 * packBytes bs

/-- `state_in` and `state_out` of a hash state: 128 bits (MD5, R170) or 160 bits (SHA-1, R210). -/
def statePort (alg : Alg) (h : Vector Word alg.hashWords) : BitVec (32 * alg.hashWords) :=
  BitVec.ofNat _ (packWords h.toList)

/-- `block_in[511:0]` of a block (R170, R210). -/
def blockPort (blk : List Byte) : BitVec 512 := BitVec.ofNat _ (packBytes blk)

/-- The hash state on a state port: H[j] in bits [32j+31:32j]. -/
def portState (alg : Alg) (p : BitVec (32 * alg.hashWords)) : Vector Word alg.hashWords :=
  Vector.ofFn fun j => p.extractLsb' (32 * j.val) 32

/-- The block on a block port: blk[m] in bits [8m+7:8m]. -/
def portBlock (p : BitVec 512) : List Byte := (List.range 64).map fun m => p.extractLsb' (8 * m) 8

/-- A compressor as a sub-block: `state_out` from `state_in` and `block_in`. -/
def compressorPort (alg : Alg) (stateIn : BitVec (32 * alg.hashWords)) (blockIn : BitVec 512) :
    BitVec (32 * alg.hashWords) :=
  statePort alg (compress alg (portState alg stateIn) (portBlock blockIn))

end Sys2Proof.Machine
end

