-- ==== Sys2Proof/Machine/Assembler.lean ====
section
/-! DEFINITION. The host's side: the assembler syntax of 30_encoding.md (R88 to R93) as accesses at the port, and the
hex form of a digest (41_padding_digest.md R150). These are pure functions; the core holds none of them. -/

namespace Sys2Proof.Machine

/-- The register names of the assembler (R88). -/
inductive RegName where
  | cmd
  | data
  | status
  | countLo
  | countHi
  | digest (k : Fin 5)
  deriving DecidableEq, Repr

/-- `off(REG)` (R88, 10_state.md R35). -/
def regOffset : RegName → BitVec 6
  | .cmd => 0x00
  | .data => 0x04
  | .status => 0x08
  | .countLo => 0x0C
  | .countHi => 0x10
  | .digest k => BitVec.ofNat 6 (0x20 + 4 * k.val)

/-- `wr <ch>.<REG>, <imm32>` (R88). -/
def asmWr (c : Alg) (reg : RegName) (imm : Word) : Access := .write (windowOffset c (regOffset reg)) 4 imm

/-- `rd <ch>.<REG>` (R88). -/
def asmRd (c : Alg) (reg : RegName) : Access := .read (windowOffset c (regOffset reg)) 4

/-- `<ch>.nop` (R89). -/
def asmNop (c : Alg) : Access := asmWr c .cmd 0x00000000

/-- `<ch>.reset` (R89). -/
def asmReset (c : Alg) : Access := asmWr c .cmd 0x00000001

/-- `<ch>.ingest <nb>` (R89); an assembler refuses nb > 4. -/
def asmIngest (c : Alg) (nb : Nat) : Option Access :=
  if nb ≤ 4 then some (asmWr c .cmd (0x00000002 ||| (BitVec.ofNat 32 nb <<< 4))) else none

/-- `<ch>.finalize` (R89). -/
def asmFinalize (c : Alg) : Access := asmWr c .cmd 0x00000003

/-- The word a put writes to DATA (R90): the first nb byte lanes of its operand, and 0 in the lanes at or above nb. -/
def putWord (nb : Fin 5) (imm : Word) : Word := le32 (dataBytes imm nb.val ++ zeros (4 - nb.val)) 0

/-- `<ch>.put <nb>, <imm32>` (R90), for nb <= 4: the DATA write, then the INGEST. -/
def asmPut (c : Alg) (nb : Fin 5) (imm : Word) : List Access :=
  [asmWr c .data (putWord nb imm), asmWr c .cmd (0x00000002 ||| (BitVec.ofNat 32 nb.val <<< 4))]

/-- `<ch>.put` of a chunk of at most 4 bytes (R91): `le32(chunk ‖ zeros(4 - nb), 0)`, the lanes above nb zero. -/
def asmPutChunk (c : Alg) (nb : Fin 5) (chunk : List Byte) : List Access :=
  asmPut c nb (le32 (chunk ++ zeros (4 - nb.val)) 0)

/-- `<ch>.absorb "<bytes>"` (R91): one put for each chunk of 4 bytes, a shorter one at the end. -/
def asmAbsorb (c : Alg) : List Byte → List Access
  | [] => []
  | [b₀] => asmPutChunk c 1 [b₀]
  | [b₀, b₁] => asmPutChunk c 2 [b₀, b₁]
  | [b₀, b₁, b₂] => asmPutChunk c 3 [b₀, b₁, b₂]
  | b₀ :: b₁ :: b₂ :: b₃ :: rest => asmPutChunk c 4 [b₀, b₁, b₂, b₃] ++ asmAbsorb c rest

/-- `<ch>.oneshot "<bytes>"` (R92): reset, absorb, finalize. -/
def asmOneshot (c : Alg) (m : List Byte) : List Access := [asmReset c] ++ asmAbsorb c m ++ [asmFinalize c]

/-- `<ch>.readdigest` (R93): DIGEST0..3 for MD5, DIGEST0..4 for SHA-1. -/
def asmReadDigest : Alg → List Access
  | .md5 => [asmRd .md5 (.digest 0), asmRd .md5 (.digest 1), asmRd .md5 (.digest 2), asmRd .md5 (.digest 3)]
  | .sha1 => [asmRd .sha1 (.digest 0), asmRd .sha1 (.digest 1), asmRd .sha1 (.digest 2), asmRd .sha1 (.digest 3),
      asmRd .sha1 (.digest 4)]

/-- The host sequence that hashes one message (70_reset_and_hazards.md R274): the one-shot, a read of STATUS, and
readdigest. -/
def hostSequence (c : Alg) (m : List Byte) : List Access := asmOneshot c m ++ [asmRd c .status] ++ asmReadDigest c

/-- The digest bytes a host recovers from the values of the DIGEST registers it read (R93). -/
def recoverDigest (words : List Word) : List Byte := words.flatMap leBytes32

/-- The hex character of a nibble (R150). -/
def hexChar (v : Nat) : Char := ("0123456789abcdef".toList).getD v '0'

/-- The hex form of a digest (R150): lowercase, two characters a byte, high nibble first. -/
def hexDigest (d : List Byte) : List Char := d.flatMap fun b => [hexChar (b.toNat / 16), hexChar (b.toNat % 16)]

end Sys2Proof.Machine
end

