-- ==== Sys2Proof/Safety.lean ====
section
/-! DEFINITION. What claims about the core are stated in: the digest of a message as the algorithms define it, the
channel that has absorbed a message (10_state.md R29), the invariant of the machine, and sequences of instructions. -/

namespace Sys2Proof.Machine

/-- A message with its padding, as one byte sequence (41_padding_digest.md R142, R144, for a whole message). -/
def paddedMessage (alg : Alg) (m : List Byte) : List Byte :=
  m ++ [0x80] ++ zeros (padZeros m.length) ++ lenField alg (BitVec.ofNat 64 (8 * m.length))

/-- The digest of a message: every block of the padded message, from the initial value (R147, R113). -/
def messageDigest (alg : Alg) (m : List Byte) : List Byte :=
  let p := paddedMessage alg m
  serialise alg (compressBlocks alg (initialHash alg) p (p.length / 64))

/-- The number of whole blocks of a message. -/
def wholeBlocks (m : List Byte) : Nat := m.length / 64

namespace Channel

variable {alg : Alg}

/-- The channel has absorbed exactly the message m since its last RESET (R113): the invariants R29 (a) to (d), and
what DV says of DIGEST (R25). -/
structure Represents (m : List Byte) (ch : Channel alg) : Prop where
  hash : ch.h = compressBlocks alg (initialHash alg) m (wholeBlocks m)
  count : ch.count = BitVec.ofNat 64 (64 * wholeBlocks m)
  buf : ch.buf = m.drop (64 * wholeBlocks m)
  absorbed : ch.absorbed = m.length
  digest : ch.dv = true → ch.digest = packDigest (messageDigest alg m)

/-- Fresh (40_hasher_commands.md R120): no byte has been absorbed since RESET. -/
def Fresh (ch : Channel alg) : Prop := ch.absorbed = 0

/-- A channel without its compressor's registers, which no rule reads (R33). -/
def visible (ch : Channel alg) : Channel alg := { ch with regs := powerOnRegs alg, unitUses := 0 }

/-- The part of a channel that commands move the message through: H, COUNT, BUF. -/
def sameMessage (ch ch' : Channel alg) : Prop := ch'.h = ch.h ∧ ch'.count = ch.count ∧ ch'.buf = ch.buf

end Channel

namespace State

/-- The invariant of the machine: each channel stands for some message (R29), and the MD5 channel's DIGEST4 is 0
(R27). -/
structure Inv (s : State) : Prop where
  md5 : ∃ m, s.md5.Represents m
  sha1 : ∃ m, s.sha1.Represents m
  digest4 : s.md5.digest[4] = 0

/-- A state without the compressors' registers (R33). -/
def visible (s : State) : State := { s with md5 := s.md5.visible, sha1 := s.sha1.visible }

/-- Nothing outside channel c differs: the other channel (but for its compressor's registers, which no rule keeps, log
7), the parameter, the port. -/
def sameOutside (c : Alg) (s s' : State) : Prop :=
  (s'.chan c.other).visible = (s.chan c.other).visible ∧ s'.lenOverflow = s.lenOverflow ∧ s'.pending = s.pending
    ∧ s'.response = s.response

/-- FINALIZE of channel c is within the bound of LEN_OVERFLOW (41_padding_digest.md R146). -/
def mayFinalize (c : Alg) (s : State) : Prop :=
  s.lenOverflow = .wrap ∨ (s.chan c).absorbed ≤ 2 ^ 61 - 1

end State

/-- An outcome without the compressors' registers. -/
def visibleOutcome : Host.Outcome State Fault Refusal → Host.Outcome State Fault Refusal
  | .next s => .next s.visible
  | .fault r => .fault r
  | .refused r => .refused r

/-- Instructions one after the other (20_memory.md R73), stopping where one stops. -/
def execAll : List Instr → State → Host.Outcome State Fault Refusal
  | [], s => .next s
  | i :: is, s =>
    match exec i s with
    | .next t => execAll is t
    | .fault r => .fault r
    | .refused r => .refused r

/-- What a host sees of n steps: the values its reads returned, in order, and the machine it leaves (20_memory.md R73).
None where a step stops. -/
def hostReads : Nat → State → Option (List Word × State)
  | 0, s => some ([], s)
  | n + 1, s =>
    match step s with
    | .next t => (hostReads n t).map fun r => (t.response.toList ++ r.1, r.2)
    | .fault _ => none
    | .refused _ => none

/-- The INGEST of n bytes on channel c, as an instruction (R103). -/
def ingestInstr (c : Alg) : Fin 5 → Instr
  | 0 => .ingest0 c
  | 1 => .ingest1 c
  | 2 => .ingest2 c
  | 3 => .ingest3 c
  | 4 => .ingest4 c

/-- What a host does to feed a channel: a write of DATA, or an INGEST of n bytes. A put (30_encoding.md R90) is one of
each. -/
inductive Feed where
  | data (v : Word)
  | ingest (nb : Fin 5)
  deriving DecidableEq, Repr

/-- The instructions of a feeding of channel c. -/
def feedInstrs (c : Alg) : List Feed → List Instr
  | [] => []
  | .data v :: fs => .wrData c v :: feedInstrs c fs
  | .ingest nb :: fs => ingestInstr c nb :: feedInstrs c fs

/-- The bytes a feeding absorbs, where DATA holds `data` at its start (20_memory.md R65, 70_reset_and_hazards.md
R276). -/
def feedBytes (data : Word) : List Feed → List Byte
  | [] => []
  | .data v :: fs => feedBytes v fs
  | .ingest nb :: fs => dataBytes data nb.val ++ feedBytes data fs

/-- The source's ingest in four steps (40_hasher_commands.md R105) on the (H, COUNT, BUF) of a channel. -/
def fourStepIngest {alg : Alg} (ch : Channel alg) (s : List Byte) : Vector Word alg.hashWords × DWord × List Byte :=
  -- step 1: fill BUF from s until BUF is full or s is used up
  let taken := 64 - ch.buf.length
  let buf₁ := ch.buf ++ s.take taken
  let s₁ := s.drop taken
  -- step 2: if BUF is full, compress it, add 64 to COUNT and empty BUF
  let full := buf₁.length = 64
  let h₂ := if full then compress alg ch.h buf₁ else ch.h
  let count₂ := if full then ch.count + 64 else ch.count
  let buf₂ := if full then [] else buf₁
  -- step 3: compress every further full 64-byte block of s directly from s
  let k := s₁.length / 64
  let h₃ := compressBlocks alg h₂ s₁ k
  let count₃ := count₂ + BitVec.ofNat 64 (64 * k)
  -- step 4: copy the remaining fewer than 64 bytes into BUF
  (h₃, count₃, buf₂ ++ s₁.drop (64 * k))

end Sys2Proof.Machine
end

