-- ==== Sys2Proof/Certificates/Slice0/Obligations.lean ====
section
/-! DEFINITION. The statements about the core, each from a numbered rule of spec/.
The values of the compressors' working registers between commands are unspecified (10_state.md R33, log 7): where a
statement compares whole states or channels, it compares them up to those registers (`visible`). -/

open Sys2Proof Sys2Proof.Machine

/-! ## Encoding and decoding (30_encoding.md) -/

/-- Every well-formed instruction is read back from the access it encodes to (R88, R89). -/
def Obligations.DecodeOfEncodeIsTheInstruction : Prop :=
  ∀ i : Instr, i.WellFormed → decode (encode i) = .ok i

/-- Every access with a meaning has one: it decodes to a well-formed instruction whose encoding it is. -/
def Obligations.EncodeOfDecodeIsTheAccess : Prop :=
  ∀ (a : Access) (i : Instr), decode a = .ok i → i.WellFormed ∧ encode i = a

/-- A few accesses written out from the tables of R35 and R84 decode to their instructions. -/
def Obligations.WrittenOutAccessesDecode : Prop :=
  decode (.write 0b0000000 4 0x00000000) = .ok (.nop .md5)
    ∧ decode (.write 0b1000000 4 0x00000001) = .ok (.reset .sha1)
    ∧ decode (.write 0b0000000 4 0b0110010) = .ok (.ingest3 .md5)
    ∧ decode (.write 0b1000000 4 0x00000003) = .ok (.finalize .sha1)
    ∧ decode (.write 0b1000100 4 0xdeadbeef) = .ok (.wrData .sha1 0xdeadbeef)
    ∧ decode (.write 0b0001000 4 0xffffffff) = .ok (.wrReg .md5 0x08 0xffffffff)
    ∧ decode (.write 0b0000000 4 0x00000052) = .ok (.wrReg .md5 0x00 0x00000052)
    ∧ decode (.read 0b1100000 4) = .ok (.rdReg .sha1 0x20)

/-- The command decoder, whole (R84, R83): eight words decode to an operation, every other word is rejected. -/
def Obligations.ExactlyEightCommandWordsDecode : Prop :=
  decodeCommand 0x00000000 = .nop ∧ decodeCommand 0x00000001 = .reset
    ∧ decodeCommand 0x00000002 = .ingest 0 ∧ decodeCommand 0x00000012 = .ingest 1
    ∧ decodeCommand 0x00000022 = .ingest 2 ∧ decodeCommand 0x00000032 = .ingest 3
    ∧ decodeCommand 0x00000042 = .ingest 4 ∧ decodeCommand 0x00000003 = .finalize
    ∧ ∀ v : Word, v ∉ legalCommandWords → decodeCommand v = .reject

/-- The assembler's command mnemonics are the encodings of their instructions, and it refuses an ingest of more than 4
bytes (R89). -/
def Obligations.CommandMnemonicsEncodeTheirInstruction : Prop :=
  ∀ c : Alg, asmNop c = encode (.nop c) ∧ asmReset c = encode (.reset c) ∧ asmFinalize c = encode (.finalize c)
    ∧ (∀ nb : Fin 5, asmIngest c nb.val = some (encode (ingestInstr c nb))) ∧ ∀ n, 4 < n → asmIngest c n = none

/-! ## The step and the port (20_memory.md) -/

/-- A step runs the instruction the oldest waiting access decodes to; around it the step only takes the access from
the port and clears what the port returned last (R73; the port's form is the model's, log 1 and log 2). -/
def Obligations.StepRunsTheDecodedInstruction : Prop :=
  ∀ (s : State) (a : Access) (rest : List Access) (i : Instr), s.pending = a :: rest → decode a = .ok i →
    step s = exec i { s with pending := rest, response := none }

/-- An access of another width, or a misaligned one, is refused and has no step (R61). Which of the two refusals an
access gets that is both is the model's choice (log 4), and left open here. -/
def Obligations.WrongWidthOrMisalignedAccessIsRefused : Prop :=
  ∀ (s : State) (off : BitVec 7) (bytes : Nat) (v : Word) (a : Access) (rest : List Access),
    s.pending = a :: rest → a = .read off bytes ∨ a = .write off bytes v →
    (bytes ≠ 4 → off.toNat % 4 = 0 → step s = .refused .accessSize)
      ∧ (bytes = 4 → off.toNat % 4 ≠ 0 → step s = .refused .misaligned)
      ∧ (bytes ≠ 4 → off.toNat % 4 ≠ 0 → step s = .refused .accessSize ∨ step s = .refused .misaligned)

/-- With no access at the port there is no step (R280: a wait is no step; that the model refuses is log 1). -/
def Obligations.NoAccessIsNoStep : Prop :=
  ∀ s : State, s.pending = [] → step s = .refused .noAccess

/-- With LEN_OVERFLOW = wrap every aligned 32-bit access completes, whatever the state (R250, R111, R110). -/
def Obligations.EveryAlignedAccessCompletes : Prop :=
  ∀ (s : State) (off : BitVec 7) (v : Word) (a : Access) (rest : List Access), s.lenOverflow = .wrap →
    s.pending = a :: rest → a = .read off 4 ∨ a = .write off 4 v → off.toNat % 4 = 0 →
    ∃ t, step s = .next t ∧ t.pending = rest

/-- An access inside the window at BASE reaches its channel and register, and one outside never reaches the core
(R60). -/
def Obligations.WindowAddressesReachTheirRegister : Prop :=
  (∀ (s : State) (c : Alg) (r : BitVec 6) (access : BitVec 7 → Access),
      (s.present (Config.base + (if c = .sha1 then 0x40 else 0) + r.toNat) access).visible
        = { s.visible with pending := s.pending ++ [access (windowOffset c r)] }
        ∧ offsetChannel (windowOffset c r) = c ∧ offsetRegister (windowOffset c r) = r)
    ∧ (∀ (s : State) (addr : Nat) (access : BitVec 7 → Access),
      addr < Config.base ∨ Config.base + 0x7F < addr → (s.present addr access).visible = s.visible)
    ∧ Config.base % 128 = 0

/-! ## Commands (40_hasher_commands.md) -/

/-- NOP and INGEST of 0 bytes change no state at all (R101, R106), and a word with OP 0 and any other bit set is no
NOP but rejected (R101). -/
def Obligations.NopAndIngestZeroChangeNothing : Prop :=
  (∀ (c : Alg) (s : State), (∃ t, exec (.nop c) s = .next t ∧ t.visible = s.visible)
      ∧ ∃ t, exec (.ingest0 c) s = .next t ∧ t.visible = s.visible)
    ∧ ∀ v : Word, opField v = 0 → v ≠ 0 → decodeCommand v = .reject

/-- RESET (R102): from any state, H, COUNT, BUF, DV, ERR and DIGEST are reinitialised and the channel is Fresh; DATA
and everything else stay. -/
def Obligations.ResetReinitialisesTheChannel : Prop :=
  ∀ (c : Alg) (s : State), ∃ t, exec (.reset c) s = .next t
    ∧ (t.chan c).h = initialHash c ∧ (t.chan c).count = 0 ∧ (t.chan c).buf = []
    ∧ (t.chan c).dv = false ∧ (t.chan c).err = false ∧ (t.chan c).digest = #v[0, 0, 0, 0, 0]
    ∧ (t.chan c).data = (s.chan c).data ∧ (t.chan c).Fresh ∧ State.sameOutside c s t

/-- INGEST nb (R103), as a whole: the lanes of DATA join BUF, and if that fills a block, the block is compressed, 64 is
added to COUNT and the rest stays in BUF. DV is cleared by one byte or more; ERR, DATA, DIGEST and everything else
stay. -/
def Obligations.IngestAbsorbsTheLanesOfData : Prop :=
  ∀ (c : Alg) (nb : Fin 5) (s : State), (s.chan c).buf.length ≤ 63 →
    ∃ t, exec (ingestInstr c nb) s = .next t
      ∧ (let f := (s.chan c).buf ++ dataBytes (s.chan c).data nb.val
         if f.length < 64 then
           (t.chan c).h = (s.chan c).h ∧ (t.chan c).count = (s.chan c).count ∧ (t.chan c).buf = f
         else
           (t.chan c).h = compress c (s.chan c).h (f.take 64) ∧ (t.chan c).count = (s.chan c).count + 64
             ∧ (t.chan c).buf = f.drop 64)
      ∧ (t.chan c).dv = (if 1 ≤ nb.val then false else (s.chan c).dv)
      ∧ (t.chan c).err = (s.chan c).err ∧ (t.chan c).data = (s.chan c).data
      ∧ (t.chan c).digest = (s.chan c).digest ∧ State.sameOutside c s t

/-- The lanes an INGEST of nb bytes takes, and that the lanes above do not matter (R65). -/
def Obligations.IngestTakesLaneZeroFirst : Prop :=
  (∀ (v : Word) (nb : Nat), nb ≤ 4 →
      dataBytes v nb
        = [v.extractLsb' 0 8, v.extractLsb' 8 8, v.extractLsb' 16 8, v.extractLsb' 24 8].take nb)
    ∧ ∀ (c : Alg) (nb : Fin 5) (s s' : State) (v v' : Word), v.toNat % 2 ^ (8 * nb.val) = v'.toNat % 2 ^ (8 * nb.val) →
      s'.visible = (s.setChan c { s.chan c with data := v' }).visible → (s.chan c).data = v →
      ∃ t t', exec (ingestInstr c nb) s = .next t ∧ exec (ingestInstr c nb) s' = .next t'
        ∧ t'.visible = (t.setChan c { t.chan c with data := v' }).visible

/-- FINALIZE (R107): the digest goes to DIGEST, DV is set, and H, COUNT, BUF, DATA, ERR and everything else stay. -/
def Obligations.FinalizeDeliversTheDigest : Prop :=
  ∀ (c : Alg) (s : State), s.mayFinalize c → ∃ t, exec (.finalize c) s = .next t
    ∧ (t.chan c).digest = packDigest (digestBytesOf c (s.chan c).h (s.chan c).buf (s.chan c).count)
    ∧ (t.chan c).dv = true ∧ (s.chan c).sameMessage (t.chan c)
    ∧ (t.chan c).data = (s.chan c).data ∧ (t.chan c).err = (s.chan c).err ∧ State.sameOutside c s t

/-- LEN_OVERFLOW (R146): with wrap FINALIZE always runs and raises nothing, its length field being the low 64 bits of
the bit length; with refuse it is refused once more than 2^61 - 1 bytes have been absorbed, and only then. -/
def Obligations.LenOverflowGovernsLongMessages : Prop :=
  ∀ (c : Alg) (s : State),
    (s.lenOverflow = .wrap → ∃ t, exec (.finalize c) s = .next t ∧ (t.chan c).err = (s.chan c).err
      ∧ (t.chan c).digest = packDigest (digestBytesOf c (s.chan c).h (s.chan c).buf (s.chan c).count)
      ∧ bitLen (s.chan c).count (s.chan c).buf.length
          = BitVec.ofNat 64 (8 * ((s.chan c).count.toNat + (s.chan c).buf.length)))
    ∧ (s.lenOverflow = .refuse → 2 ^ 61 - 1 < (s.chan c).absorbed →
        exec (.finalize c) s = .refused .lengthOverflow)
    ∧ (s.lenOverflow = .refuse → (s.chan c).absorbed ≤ 2 ^ 61 - 1 → ∃ t, exec (.finalize c) s = .next t)

/-- FINALIZE twice gives the same DIGEST and the same message state (R108 (a)). -/
def Obligations.FinalizeTwiceGivesTheSameDigest : Prop :=
  ∀ (c : Alg) (s : State), s.mayFinalize c → ∃ t u, exec (.finalize c) s = .next t ∧ exec (.finalize c) t = .next u
    ∧ (u.chan c).digest = (t.chan c).digest ∧ (s.chan c).sameMessage (u.chan c)

/-- FINALIZE twice in a row gives the same DIGEST both times, and a later feeding and FINALIZE end as if the earlier
FINALIZEs had never happened (R116): the same machine, but for the compressors' unspecified registers, or the same
refusal. -/
def Obligations.EarlierFinalizesLeaveNoTrace : Prop :=
  ∀ (c : Alg) (s : State) (feed : List Feed), s.mayFinalize c →
    (∃ t u, exec (.finalize c) s = .next t ∧ exec (.finalize c) t = .next u
      ∧ (u.chan c).digest = (t.chan c).digest)
    ∧ visibleOutcome (execAll ([.finalize c, .finalize c] ++ feedInstrs c feed ++ [.finalize c]) s)
        = visibleOutcome (execAll (feedInstrs c feed ++ [.finalize c]) s)
    ∧ (s.lenOverflow = .wrap → ∃ t, execAll (feedInstrs c feed ++ [.finalize c]) s = .next t)

/-- A write of DATA stores the word and changes nothing else (R109). -/
def Obligations.DataWriteStoresTheWord : Prop :=
  ∀ (c : Alg) (v : Word) (s : State) (i : Instr), i = .wrData c v ∨ i = .wrReg c 0x04 v →
    ∃ t, exec i s = .next t ∧ t.visible = (s.setChan c { s.chan c with data := v }).visible

/-- A read returns the register's value and changes no channel; bit 6 of the window offset names the channel and bits
5:0 the register (R110). -/
def Obligations.ReadReturnsTheRegister : Prop :=
  ∀ (c : Alg) (r : BitVec 6) (s : State), r.toNat % 4 = 0 →
    (∃ t, exec (.rdReg c r) s = .next t ∧ t.visible = { s.visible with response := some (
      if r = 0x04 then (s.chan c).data
      else if r = 0x08 then (s.chan c).status
      else if r = 0x0C then (s.chan c).count.extractLsb' 0 32
      else if r = 0x10 then (s.chan c).count.extractLsb' 32 32
      else if r = 0x20 then (s.chan c).digest[0]
      else if r = 0x24 then (s.chan c).digest[1]
      else if r = 0x28 then (s.chan c).digest[2]
      else if r = 0x2C then (s.chan c).digest[3]
      else if r = 0x30 then (s.chan c).digest[4]
      else 0) })
    ∧ decode (.read ((if c = .sha1 then (1 : BitVec 1) else 0) ++ r) 4) = .ok (.rdReg c r)

/-- A read changes nothing but what the port returns, and a second read of the same register returns the same value
(R62). -/
def Obligations.ReadsHaveNoSideEffects : Prop :=
  ∀ (c : Alg) (r : BitVec 6) (s : State), r.toNat % 4 = 0 → ∃ t u, exec (.rdReg c r) s = .next t
    ∧ t.visible = { s.visible with response := t.response }
    ∧ exec (.rdReg c r) t = .next u ∧ u.visible = t.visible

/-- The fields of STATUS, and that writes to it are ignored (R38). -/
def Obligations.StatusFields : Prop :=
  ∀ (c : Alg) (s : State), (s.chan c).buf.length ≤ 63 →
    (∃ (v : Word) (t : State), exec (.rdReg c 0x08) s = .next t
      ∧ t.visible = { s.visible with response := some v }
      ∧ v.getLsbD 0 = (s.chan c).dv ∧ v.getLsbD 1 = (s.chan c).err
      ∧ v.extractLsb' 2 6 = 0 ∧ (v.extractLsb' 8 6).toNat = (s.chan c).buf.length
      ∧ v.extractLsb' 14 2 = 0 ∧ v.getLsbD 16 = decide (c = .sha1) ∧ v.extractLsb' 17 15 = 0)
    ∧ ∀ w : Word, ∃ t, exec (.wrReg c 0x08 w) s = .next t ∧ t.visible = s.visible

/-- COUNT_LO and COUNT_HI are the two halves of COUNT, and bits [5:0] of COUNT_LO read 0 where COUNT is a multiple of
64 (R39, R29 (b)). -/
def Obligations.CountHalves : Prop :=
  ∀ (c : Alg) (s : State), ∃ (lo hi : Word) (t u : State),
    exec (.rdReg c 0x0C) s = .next t ∧ t.visible = { s.visible with response := some lo }
      ∧ exec (.rdReg c 0x10) s = .next u ∧ u.visible = { s.visible with response := some hi }
      ∧ hi ++ lo = (s.chan c).count
      ∧ ((s.chan c).count.toNat % 64 = 0 → lo.extractLsb' 0 6 = 0)

/-- Writes to read-only and reserved registers are ignored, and reserved offsets read 0 (R41). -/
def Obligations.OtherWritesAreIgnored : Prop :=
  ∀ (c : Alg) (r : BitVec 6) (v : Word) (s : State),
    (r.toNat % 4 = 0 → r ≠ 0x00 → r ≠ 0x04 → ∃ t, exec (.wrReg c r v) s = .next t ∧ t.visible = s.visible)
    ∧ (r ∈ [0x14, 0x18, 0x1C, 0x34, 0x38, 0x3C] →
        ∃ t, exec (.rdReg c r) s = .next t ∧ t.visible = { s.visible with response := some 0 })

/-- An instruction whose register offset is misaligned is refused. No access decodes to one, and the refusal is the
model's choice (log 13, from R61). -/
def Obligations.MisalignedRegisterOffsetIsRefused : Prop :=
  ∀ (c : Alg) (r : BitVec 6) (v : Word) (s : State), r.toNat % 4 ≠ 0 →
    exec (.wrReg c r v) s = .refused .misaligned ∧ exec (.rdReg c r) s = .refused .misaligned

/-- A word written to CMD executes the command it decodes to, or sets ERR where it is rejected (R100). -/
def Obligations.CmdWriteExecutesTheDecodedCommand : Prop :=
  ∀ (c : Alg) (v : Word) (s : State),
    (∀ i, (decodeCommand v).instr c = some i → exec (.wrReg c 0x00 v) s = exec i s)
      ∧ ((decodeCommand v).instr c = none → ∃ t, exec (.wrReg c 0x00 v) s = .next t
          ∧ t.visible = (s.setChan c { s.chan c with err := true }).visible)

/-- A reserved word written to CMD sets ERR and changes nothing else, in either channel (R86, R254). -/
def Obligations.ReservedWordOnlySetsErr : Prop :=
  ∀ (c : Alg) (v : Word) (s : State), v ∉ legalCommandWords →
    ∃ t, exec (.wrReg c 0x00 v) s = .next t ∧ (t.chan c).err = true
      ∧ (t.chan c).h = (s.chan c).h ∧ (t.chan c).count = (s.chan c).count ∧ (t.chan c).buf = (s.chan c).buf
      ∧ (t.chan c).data = (s.chan c).data ∧ (t.chan c).dv = (s.chan c).dv ∧ (t.chan c).digest = (s.chan c).digest
      ∧ State.sameOutside c s t

/-- ERR does not gate a command (R119, R100): with ERR set, a legal command does what it does with ERR clear. -/
def Obligations.ErrDoesNotGateCommands : Prop :=
  ∀ (c : Alg) (cmd : Command) (i : Instr) (s t : State), cmd.instr c = some i → exec i s = .next t →
    ∃ t', exec i (s.setChan c { s.chan c with err := true }) = .next t'
      ∧ { (t'.chan c).visible with err := false } = { (t.chan c).visible with err := false }
      ∧ State.sameOutside c t t'

/-! ## What only some instructions may do (10_state.md) -/

/-- ERR is sticky (R26, R255): only RESET clears it, and only a reserved command word sets it. -/
def Obligations.ErrIsSticky : Prop :=
  ∀ (i : Instr) (s t : State) (c : Alg), exec i s = .next t →
    ((s.chan c).err = true → (t.chan c).err = false → exec i s = exec (.reset c) s)
      ∧ ((s.chan c).err = false → (t.chan c).err = true →
        ∃ v, i = .wrReg c 0x00 v ∧ v ∉ legalCommandWords)

/-- H has two writers (R30): RESET, which loads the initial value, and the compression of one whole block inside an
INGEST, which adds 64 to COUNT. -/
def Obligations.HashWrittenByWholeBlocksOrReset : Prop :=
  ∀ (i : Instr) (s t : State) (c : Alg), (s.chan c).buf.length ≤ 63 → exec i s = .next t →
    ((t.chan c).h = (s.chan c).h ∧ (t.chan c).count = (s.chan c).count)
      ∨ (exec i s = exec (.reset c) s ∧ (t.chan c).h = initialHash c ∧ (t.chan c).count = 0)
      ∨ ∃ (nb : Fin 5) (blk : List Byte), exec i s = exec (ingestInstr c nb) s ∧ blk.length = 64
        ∧ (s.chan c).buf <+: blk ∧ (t.chan c).h = compress c (s.chan c).h blk
        ∧ (t.chan c).count = (s.chan c).count + 64

/-- Only a write to DATA changes DATA (R24). -/
def Obligations.DataWrittenByDataWritesOnly : Prop :=
  ∀ (i : Instr) (s t : State) (c : Alg), exec i s = .next t →
    (t.chan c).data = (s.chan c).data
      ∨ ∃ v, (i = .wrData c v ∨ i = .wrReg c 0x04 v) ∧ (t.chan c).data = v

/-- Only FINALIZE and RESET write DIGEST (R27); FINALIZE sets DV and RESET clears it (R25). -/
def Obligations.DigestWrittenByFinalizeOrReset : Prop :=
  ∀ (i : Instr) (s t : State) (c : Alg), exec i s = .next t →
    (t.chan c).digest = (s.chan c).digest
      ∨ (exec i s = exec (.finalize c) s ∧ (t.chan c).dv = true
          ∧ (t.chan c).digest = packDigest (digestBytesOf c (s.chan c).h (s.chan c).buf (s.chan c).count))
      ∨ (exec i s = exec (.reset c) s ∧ (t.chan c).dv = false ∧ (t.chan c).digest = #v[0, 0, 0, 0, 0])

/-- Who writes DV (R25): FINALIZE sets it, RESET and an INGEST of one byte or more clear it, NOP, an INGEST of 0 bytes
and a rejected word leave it, and no other instruction changes it. -/
def Obligations.DvWrittenByFinalizeResetOrIngest : Prop :=
  (∀ (c : Alg) (s : State), s.mayFinalize c → ∃ t, exec (.finalize c) s = .next t ∧ (t.chan c).dv = true)
    ∧ (∀ (c : Alg) (s : State), ∃ t, exec (.reset c) s = .next t ∧ (t.chan c).dv = false)
    ∧ (∀ (c : Alg) (nb : Fin 5) (s : State), 1 ≤ nb.val →
        ∃ t, exec (ingestInstr c nb) s = .next t ∧ (t.chan c).dv = false)
    ∧ (∀ (c : Alg) (s : State) (i : Instr),
        i = .nop c ∨ i = .ingest0 c ∨ (∃ v, v ∉ legalCommandWords ∧ i = .wrReg c 0x00 v) →
        ∃ t, exec i s = .next t ∧ (t.chan c).dv = (s.chan c).dv)
    ∧ ∀ (i : Instr) (s t : State) (c : Alg), exec i s = .next t →
        (t.chan c).dv = (s.chan c).dv
          ∨ (exec i s = exec (.finalize c) s ∧ (t.chan c).dv = true)
          ∨ (exec i s = exec (.reset c) s ∧ (t.chan c).dv = false)
          ∨ ∃ nb : Fin 5, 1 ≤ nb.val ∧ exec i s = exec (ingestInstr c nb) s ∧ (t.chan c).dv = false

/-- COUNT wraps to 0 after 2^64 bytes, and no flag reports it (R112). -/
def Obligations.CountWrapsWithoutAFlag : Prop :=
  ∀ (c : Alg) (s : State), (s.chan c).buf.length = 63 → (s.chan c).count = BitVec.ofNat 64 (2 ^ 64 - 64) →
    ∃ t, exec (.ingest1 c) s = .next t ∧ (t.chan c).count = 0 ∧ (t.chan c).buf = []
      ∧ (t.chan c).err = (s.chan c).err

/-- The channels are independent (R118): an instruction leaves the other channel alone; what it does to its own
channel and what it returns depend on that channel only (and on the parameter LEN_OVERFLOW); and in any interleaving
each channel ends as if only its own instructions had run. -/
def Obligations.ChannelsAreIndependent : Prop :=
  (∀ (i : Instr) (s t : State), exec i s = .next t →
      (t.chan i.channel.other).visible = (s.chan i.channel.other).visible)
    ∧ (∀ (i : Instr) (s s' : State), (s.chan i.channel).visible = (s'.chan i.channel).visible →
        s.lenOverflow = s'.lenOverflow → s.response = s'.response →
        (∃ t t', exec i s = .next t ∧ exec i s' = .next t'
            ∧ (t.chan i.channel).visible = (t'.chan i.channel).visible ∧ t.response = t'.response)
          ∨ ∃ r, exec i s = .refused r ∧ exec i s' = .refused r)
    ∧ (∀ (is : List Instr) (s t : State) (c : Alg), execAll is s = .next t →
        ∃ u, execAll (is.filter fun i => i.channel == c) s = .next u
          ∧ (u.chan c).visible = (t.chan c).visible)

/-- The compressors' registers are unobservable (R33): two machines that differ in nothing else take the same step,
whatever those registers hold before or after. -/
def Obligations.CompressorRegistersAreUnobservable : Prop :=
  ∀ s s' : State, s.visible = s'.visible → visibleOutcome (step s) = visibleOutcome (step s')

/-! ## The message a channel has absorbed (10_state.md R29, 40_hasher_commands.md R113 to R120) -/

/-- Every step keeps the invariants between accesses (R29, R25, R27). -/
def Obligations.EveryStepKeepsTheInvariant : Prop :=
  ∀ s t : State, s.Inv → step s = .next t → t.Inv

/-- The machine right after power-on reset has the invariant. -/
def Obligations.ResetHasTheInvariant : Prop := State.reset.Inv

/-- INGEST extends the message (R113, R29). -/
def Obligations.IngestExtendsTheMessage : Prop :=
  ∀ (c : Alg) (nb : Fin 5) (s : State) (m : List Byte), (s.chan c).Represents m →
    ∃ t, exec (ingestInstr c nb) s = .next t
      ∧ (t.chan c).Represents (m ++ dataBytes (s.chan c).data nb.val)

/-- After FINALIZE, DIGEST holds the digest of the message absorbed, DV is 1, and the channel still stands for the same
message; and DV stays 1 until a RESET or an INGEST of one byte or more (R114). -/
def Obligations.FinalizeGivesTheDigestOfTheMessage : Prop :=
  (∀ (c : Alg) (s : State) (m : List Byte), (s.chan c).Represents m → s.mayFinalize c →
    ∃ t, exec (.finalize c) s = .next t ∧ (t.chan c).digest = packDigest (messageDigest c m)
      ∧ (t.chan c).dv = true ∧ (t.chan c).Represents m)
    ∧ ∀ (c : Alg) (i : Instr) (s t : State), exec i s = .next t → (s.chan c).dv = true → (t.chan c).dv = false →
      exec i s = exec (.reset c) s ∨ ∃ nb : Fin 5, 1 ≤ nb.val ∧ exec i s = exec (ingestInstr c nb) s

/-- From any state, reset and finalize give the algorithm's digest of the empty message (R115). -/
def Obligations.ResetThenFinalizeGivesTheEmptyDigest : Prop :=
  ∀ s : State,
    (∃ t, execAll [.reset .md5, .finalize .md5] s = .next t
      ∧ hexDigest (recoverDigest (t.md5.digest.toList.take 4)) = "d41d8cd98f00b204e9800998ecf8427e".toList)
    ∧ (∃ t, execAll [.reset .sha1, .finalize .sha1] s = .next t
      ∧ hexDigest (recoverDigest t.sha1.digest.toList) = "da39a3ee5e6b4b0d3255bfef95601890afd80709".toList)

/-- Chunking does not matter (R117): two feedings of a channel that absorb the same bytes leave the same H, COUNT and
BUF, and a FINALIZE after them gives the same digest. -/
def Obligations.ChunkingDoesNotMatter : Prop :=
  ∀ (c : Alg) (s : State) (feed feed' : List Feed),
    feedBytes (s.chan c).data feed = feedBytes (s.chan c).data feed' →
    ∃ t t', execAll (feedInstrs c feed) s = .next t ∧ execAll (feedInstrs c feed') s = .next t'
      ∧ (t.chan c).sameMessage (t'.chan c)
      ∧ (t.mayFinalize c → ∃ u u', exec (.finalize c) t = .next u ∧ exec (.finalize c) t' = .next u'
          ∧ (u.chan c).digest = (u'.chan c).digest)

/-- The label Fresh (R120): RESET gives it, an INGEST of one byte or more takes it away, every other legal command and
every rejected word keeps it, and a channel is Fresh exactly when its message is empty, with H = IV, COUNT = 0 and BUF
empty. -/
def Obligations.FreshLabel : Prop :=
  (∀ (c : Alg) (s : State), ∃ t, exec (.reset c) s = .next t ∧ (t.chan c).Fresh)
    ∧ (∀ (c : Alg) (nb : Fin 5) (s : State), 1 ≤ nb.val →
        ∃ t, exec (ingestInstr c nb) s = .next t ∧ ¬ (t.chan c).Fresh)
    ∧ (∀ (c : Alg) (s t : State) (i : Instr),
        i = .nop c ∨ i = .ingest0 c ∨ i = .finalize c ∨ (∃ v, v ∉ legalCommandWords ∧ i = .wrReg c 0x00 v) →
        exec i s = .next t → ((t.chan c).Fresh ↔ (s.chan c).Fresh))
    ∧ (∀ (c : Alg) (ch : Channel c) (m : List Byte), ch.Represents m → ch.Fresh →
        m = [] ∧ ch.h = initialHash c ∧ ch.count = 0 ∧ ch.buf = [])
    ∧ (∀ (c : Alg) (ch : Channel c), ch.Represents [] → ch.Fresh)

/-- The source's four-step ingest leaves the same H, COUNT and BUF as absorbing byte by byte (R105). -/
def Obligations.FourStepIngestIsBytewise : Prop :=
  ∀ (c : Alg) (ch : Channel c) (s : List Byte), ch.buf.length ≤ 63 →
    fourStepIngest ch s = ((ch.absorb s).h, (ch.absorb s).count, (ch.absorb s).buf)

/-- The one-shot of a message (R92), run from any state with any accesses waiting behind it: the channel ends with the
digest of exactly that message, DV = 1 and ERR = 0, and the other channel is as it was. -/
def Obligations.OneshotHashesTheMessage : Prop :=
  ∀ (c : Alg) (m : List Byte) (rest : List Access) (s : State),
    s.lenOverflow = .wrap ∨ m.length ≤ 2 ^ 61 - 1 → s.pending = asmOneshot c m ++ rest →
    ∃ t : State, Sys2Proof.core.run (asmOneshot c m).length s = .next t ∧ t.pending = rest
      ∧ (t.chan c).Represents m ∧ (t.chan c).dv = true ∧ (t.chan c).err = false
      ∧ (t.chan c).digest = packDigest (messageDigest c m)
      ∧ (t.chan c.other).visible = (s.chan c.other).visible

/-! ## Padding and digest (41_padding_digest.md) -/

/-- The marker byte stands right after the buffered bytes (R141), the final data is one block long or two, and FINALIZE
compresses exactly that one block, or those two in order (R143). -/
def Obligations.FinalDataIsOneOrTwoBlocks : Prop :=
  (∀ (c : Alg) (buf : List Byte) (count : DWord), buf.length ≤ 63 →
    (finalData c buf count).length = (if buf.length ≤ 55 then 64 else 128)
      ∧ buf <+: finalData c buf count ∧ byteAt (finalData c buf count) buf.length = 0x80)
    ∧ ∀ (c : Alg) (s : State), (s.chan c).buf.length ≤ 63 → s.mayFinalize c →
      let f := finalData c (s.chan c).buf (s.chan c).count
      ∃ t, exec (.finalize c) s = .next t ∧ (t.chan c).digest = packDigest (serialise c (
        if (s.chan c).buf.length ≤ 55 then compress c (s.chan c).h f
        else compress c (compress c (s.chan c).h (f.take 64)) (f.drop 64)))

/-- The length field as the compressors read it (R145): words 14 and 15 of the last block. -/
def Obligations.LengthFieldInTheLastTwoWords : Prop :=
  ∀ (buf : List Byte) (count : DWord), buf.length ≤ 63 →
    (let l := bitLen count buf.length
     let last := fun f : List Byte => blockAt f (f.length / 64 - 1)
     let x := md5Words (last (finalData .md5 buf count))
     let w := sha1Words (last (finalData .sha1 buf count))
     x[14]? = some (l.extractLsb' 0 32) ∧ x[15]? = some (l.extractLsb' 32 32)
       ∧ w[14]? = some (l.extractLsb' 32 32) ∧ w[15]? = some (l.extractLsb' 0 32))

/-- The bit length of a channel is the low 64 bits of its message's bit length (R144). -/
def Obligations.BitLenIsTheMessageBitLength : Prop :=
  ∀ (c : Alg) (ch : Channel c) (m : List Byte), ch.Represents m →
    bitLen ch.count ch.buf.length = BitVec.ofNat 64 (8 * m.length)

/-- The DIGEST registers (R70): MD5's are the words of the final hash state, with DIGEST4 zero; SHA-1's are its words
with their four bytes reversed. -/
def Obligations.DigestRegisterPacking : Prop :=
  (∀ h : Vector Word 4, packDigest (serialise .md5 h) = #v[h[0], h[1], h[2], h[3], 0])
    ∧ ∀ (h : Vector Word 5) (k : Fin 5),
      leBytes32 (packDigest (serialise .sha1 h))[k] = beBytes32 h[k]

/-- The host runs readdigest (R93): the reads complete, and the bytes of what they return are the digest that the DIGEST
registers hold; nothing but the port changes. -/
def Obligations.HostRecoversTheDigest : Prop :=
  ∀ (c : Alg) (h : Vector Word c.hashWords) (rest : List Access) (s : State),
    s.pending = asmReadDigest c ++ rest → (s.chan c).digest = packDigest (serialise c h) →
    ∃ ws t, hostReads (asmReadDigest c).length s = some (ws, t) ∧ recoverDigest ws = serialise c h
      ∧ t.visible = { s.visible with pending := rest, response := t.response }

/-! ## Compressors (42_md5_compressor.md, 43_sha1_compressor.md) -/

/-- The 16-word rolling schedule (R213): before step t >= 16 the slot of each of the 16 words before W[t] holds that
word, every step t uses W[t], and the compression is that of the 80-word schedule. -/
def Obligations.RollingScheduleIsEquivalent : Prop :=
  ∀ (h : Vector Word 5) (blk : List Byte),
    let q := fun n : Nat => ((List.range n).foldl sha1RollingStep (sha1Words blk, sha1Load h)).1
    (∀ t u : Nat, 16 ≤ t → t < 80 → t ≤ u + 16 → u < t →
        (q t).getD (u % 16) 0 = (sha1Schedule blk).getD u 0)
      ∧ (∀ t : Nat, t < 80 → (q (t + 1)).getD (t % 16) 0 = (sha1Schedule blk).getD t 0)
      ∧ sha1CompressRolling h blk = sha1Compress h blk

/-- The other forms the spec allows for F, G, Ch and Maj compute the same values (R172, R214). -/
def Obligations.BooleanFunctionsHaveEquivalentForms : Prop :=
  ∀ x y z : Word, md5F x y z = z ^^^ (x &&& (y ^^^ z)) ∧ md5G x y z = y ^^^ (z &&& (x ^^^ y))
    ∧ sha1Ch x y z = z ^^^ (x &&& (y ^^^ z)) ∧ sha1Maj x y z = (x &&& y) ||| (z &&& (x ||| y))

/-- The compressors' ports carry the compression (R170, R210): with H and a block laid out on the input ports, the
output port holds the compressed state in the same layout. -/
def Obligations.CompressorPortsCarryTheCompression : Prop :=
  ∀ (alg : Alg) (h : Vector Word alg.hashWords) (blk : List Byte), blk.length = 64 →
    compressorPort alg (statePort alg h) (blockPort blk) = statePort alg (compress alg h blk)

/-! ## Reset (70_reset_and_hazards.md) -/

/-- The registers right after power-on reset (R271): all read 0 but SHA-1's STATUS, which reads 0x00010000. -/
def Obligations.RegistersAfterPowerOn : Prop :=
  ∀ (s : State) (c : Alg) (r : BitVec 6), r.toNat % 4 = 0 →
    ∃ t, exec (.rdReg c r) s.powerOn = .next t ∧ t.visible
      = { s.powerOn.visible with response := some (if c = .sha1 ∧ r = 0x08 then 0x00010000 else 0) }

/-- RESET against power-on reset (R272): one channel only, and DATA stays. -/
def Obligations.ResetCommandAgainstPowerOn : Prop :=
  ∀ (c : Alg) (s : State), ∃ t, exec (.reset c) s = .next t
    ∧ (t.chan c).visible = { (s.powerOn.chan c).visible with data := (s.chan c).data }
    ∧ (t.chan c.other).visible = (s.chan c.other).visible

/-! ## BUF, and the host's programs -/

/-- Only RESET and an INGEST of one byte or more change BUF (R23, R109). -/
def Obligations.BufWrittenByResetOrIngest : Prop :=
  ∀ (i : Instr) (s t : State) (c : Alg), exec i s = .next t →
    (t.chan c).buf = (s.chan c).buf
      ∨ (exec i s = exec (.reset c) s ∧ (t.chan c).buf = [])
      ∨ ∃ nb : Fin 5, 1 ≤ nb.val ∧ exec i s = exec (ingestInstr c nb) s

/-- A put (R90) is the write of DATA and then the INGEST; the word written has the operand's first nb lanes and 0 in the
others, which the INGEST does not take. -/
def Obligations.PutWritesTheUnusedLanesAsZero : Prop :=
  ∀ (c : Alg) (nb : Fin 5) (imm : Word), ∃ v : Word,
    asmPut c nb imm = [encode (.wrData c v), encode (ingestInstr c nb)]
      ∧ (∀ j, j < 4 → lane v j = if j < nb.val then lane imm j else 0)
      ∧ dataBytes v nb.val = dataBytes imm nb.val

/-- The host sequence that hashes one message (R274), run access by access from any state with anything waiting behind
it: STATUS is read with DV = 1 and ERR = 0, and the bytes of the words read after it are the message's digest. -/
def Obligations.HostSequenceReadsTheDigest : Prop :=
  ∀ (c : Alg) (m : List Byte) (rest : List Access) (s : State),
    s.lenOverflow = .wrap ∨ m.length ≤ 2 ^ 61 - 1 → s.pending = hostSequence c m ++ rest →
    ∃ (status : Word) (ws : List Word) (t : State),
      hostReads (hostSequence c m).length s = some (status :: ws, t)
        ∧ status.getLsbD 0 = true ∧ status.getLsbD 1 = false ∧ recoverDigest ws = messageDigest c m
        ∧ (t.chan c).Represents m ∧ t.pending = rest
end

