-- ==== Sys2Proof/Laws/Blocks.lean ====
section
/-! SUPPORT. Blocks of a byte sequence, and compressing them one after the other (41_padding_digest.md R147). -/

namespace Sys2Proof.Machine

variable {alg : Alg}

@[simp] theorem compressBlocks_zero (h : Vector Word alg.hashWords) (b : List Byte) :
    compressBlocks alg h b 0 = h := rfl

theorem compressBlocks_succ (h : Vector Word alg.hashWords) (b : List Byte) (n : Nat) :
    compressBlocks alg h b (n + 1) = compress alg (compressBlocks alg h b n) (blockAt b n) := by
  simp [compressBlocks, List.range_succ]

/-- The blocks a prefix already has do not change when bytes are added behind it. -/
theorem blockAt_append_left (b c : List Byte) (j : Nat) (h : 64 * j + 64 ≤ b.length) :
    blockAt (b ++ c) j = blockAt b j := by
  unfold blockAt
  rw [List.drop_append_of_le_length (by omega), List.take_append_of_le_length (by simp; omega)]

theorem compressBlocks_append_left (h : Vector Word alg.hashWords) (b c : List Byte) (n : Nat)
    (hn : 64 * n ≤ b.length) : compressBlocks alg h (b ++ c) n = compressBlocks alg h b n := by
  induction n with
  | zero => rfl
  | succ n ih =>
    rw [compressBlocks_succ, compressBlocks_succ, ih (by omega), blockAt_append_left b c n (by omega)]

/-- Blocks counted from a block boundary on. -/
theorem blockAt_drop (b : List Byte) (k j : Nat) : blockAt (b.drop (64 * k)) j = blockAt b (k + j) := by
  simp [blockAt, List.drop_drop, Nat.mul_add]

/-- Compressing k blocks and then the n blocks behind them is compressing k + n blocks. -/
theorem compressBlocks_add (h : Vector Word alg.hashWords) (b : List Byte) (k n : Nat) :
    compressBlocks alg h b (k + n) = compressBlocks alg (compressBlocks alg h b k) (b.drop (64 * k)) n := by
  induction n with
  | zero => rfl
  | succ n ih => rw [← Nat.add_assoc, compressBlocks_succ, ih, compressBlocks_succ, blockAt_drop]

/-- The first block of a sequence of at least one block, and the rest of its blocks. -/
theorem compressBlocks_succ_left (h : Vector Word alg.hashWords) (b : List Byte) (n : Nat) :
    compressBlocks alg h b (n + 1) = compressBlocks alg (compress alg h (b.take 64)) (b.drop 64) n := by
  rw [Nat.add_comm, compressBlocks_add h b 1 n]
  simp [compressBlocks, blockAt]

@[simp] theorem zeros_length (n : Nat) : (zeros n).length = n := by simp [zeros]

@[simp] theorem lenField_length (l : DWord) : (lenField alg l).length = 8 := by cases alg <;> rfl

@[simp] theorem dataBytes_length (v : Word) (n : Nat) : (dataBytes v n).length = n := by simp [dataBytes]

@[simp] theorem dataBytes_zero (v : Word) : dataBytes v 0 = [] := rfl

theorem padZeros_lt (n : Nat) : padZeros n < 64 := by unfold padZeros; omega

/-- Marker and zeros bring a length to 56 modulo 64 (R142). -/
theorem padZeros_congruent (n : Nat) : (n + 1 + padZeros n) % 64 = 56 := by unfold padZeros; omega

/-- Only the length modulo 64 matters for the zeros (R142: COUNT is a multiple of 64). -/
theorem padZeros_mod (n : Nat) : padZeros (n % 64) = padZeros n := by unfold padZeros; omega

theorem pad_length (buf : List Byte) (count : DWord) :
    (pad alg buf count).length = 1 + padZeros buf.length + 8 := by
  simp [pad]; omega

/-- The final data is a whole number of blocks (R140, R142). -/
theorem finalData_length (buf : List Byte) (count : DWord) :
    (finalData alg buf count).length = buf.length + 1 + padZeros buf.length + 8 := by
  simp [finalData, pad_length]; omega

end Sys2Proof.Machine
end

