-- ==== Sys2Proof/Laws/State.lean ====
section
/-! SUPPORT. One lemma per field per update of the state, each true by unfolding: no later proof unfolds a record
update. -/

namespace Sys2Proof.Machine

namespace Channel

variable {alg : Alg} (ch : Channel alg) (v : Word)

@[simp] theorem useUnit_h : ch.useUnit.h = ch.h := rfl
@[simp] theorem useUnit_count : ch.useUnit.count = ch.count := rfl
@[simp] theorem useUnit_buf : ch.useUnit.buf = ch.buf := rfl
@[simp] theorem useUnit_data : ch.useUnit.data = ch.data := rfl
@[simp] theorem useUnit_dv : ch.useUnit.dv = ch.dv := rfl
@[simp] theorem useUnit_err : ch.useUnit.err = ch.err := rfl
@[simp] theorem useUnit_digest : ch.useUnit.digest = ch.digest := rfl
@[simp] theorem useUnit_regs : ch.useUnit.regs = Config.unspecifiedRegs alg ch.unitUses := rfl
@[simp] theorem useUnit_unitUses : ch.useUnit.unitUses = ch.unitUses + 1 := rfl
@[simp] theorem useUnit_absorbed : ch.useUnit.absorbed = ch.absorbed := rfl

@[simp] theorem flush_h : ch.flush.h = compress alg ch.h ch.buf := rfl
@[simp] theorem flush_count : ch.flush.count = ch.count + 64 := rfl
@[simp] theorem flush_buf : ch.flush.buf = [] := rfl
@[simp] theorem flush_data : ch.flush.data = ch.data := rfl
@[simp] theorem flush_dv : ch.flush.dv = ch.dv := rfl
@[simp] theorem flush_err : ch.flush.err = ch.err := rfl
@[simp] theorem flush_digest : ch.flush.digest = ch.digest := rfl
@[simp] theorem flush_regs : ch.flush.regs = Config.unspecifiedRegs alg ch.unitUses := rfl
@[simp] theorem flush_unitUses : ch.flush.unitUses = ch.unitUses + 1 := rfl
@[simp] theorem flush_absorbed : ch.flush.absorbed = ch.absorbed := rfl

@[simp] theorem finalize_h : ch.finalize.h = ch.h := rfl
@[simp] theorem finalize_count : ch.finalize.count = ch.count := rfl
@[simp] theorem finalize_buf : ch.finalize.buf = ch.buf := rfl
@[simp] theorem finalize_data : ch.finalize.data = ch.data := rfl
@[simp] theorem finalize_dv : ch.finalize.dv = true := rfl
@[simp] theorem finalize_err : ch.finalize.err = ch.err := rfl
@[simp] theorem finalize_digest : ch.finalize.digest = ch.finalDigest := rfl
@[simp] theorem finalize_regs : ch.finalize.regs = Config.unspecifiedRegs alg ch.unitUses := rfl
@[simp] theorem finalize_unitUses : ch.finalize.unitUses = ch.unitUses + 1 := rfl
@[simp] theorem finalize_absorbed : ch.finalize.absorbed = ch.absorbed := rfl

@[simp] theorem reset_h : ch.reset.h = initialHash alg := rfl
@[simp] theorem reset_count : ch.reset.count = 0 := rfl
@[simp] theorem reset_buf : ch.reset.buf = [] := rfl
@[simp] theorem reset_data : ch.reset.data = ch.data := rfl
@[simp] theorem reset_dv : ch.reset.dv = false := rfl
@[simp] theorem reset_err : ch.reset.err = false := rfl
@[simp] theorem reset_digest : ch.reset.digest = #v[0, 0, 0, 0, 0] := rfl
@[simp] theorem reset_regs : ch.reset.regs = ch.regs := rfl
@[simp] theorem reset_unitUses : ch.reset.unitUses = ch.unitUses := rfl
@[simp] theorem reset_absorbed : ch.reset.absorbed = 0 := rfl

@[simp] theorem reject_h : ch.reject.h = ch.h := rfl
@[simp] theorem reject_count : ch.reject.count = ch.count := rfl
@[simp] theorem reject_buf : ch.reject.buf = ch.buf := rfl
@[simp] theorem reject_data : ch.reject.data = ch.data := rfl
@[simp] theorem reject_dv : ch.reject.dv = ch.dv := rfl
@[simp] theorem reject_err : ch.reject.err = true := rfl
@[simp] theorem reject_digest : ch.reject.digest = ch.digest := rfl
@[simp] theorem reject_regs : ch.reject.regs = ch.regs := rfl
@[simp] theorem reject_unitUses : ch.reject.unitUses = ch.unitUses := rfl
@[simp] theorem reject_absorbed : ch.reject.absorbed = ch.absorbed := rfl

@[simp] theorem writeData_h : (ch.writeData v).h = ch.h := rfl
@[simp] theorem writeData_count : (ch.writeData v).count = ch.count := rfl
@[simp] theorem writeData_buf : (ch.writeData v).buf = ch.buf := rfl
@[simp] theorem writeData_data : (ch.writeData v).data = v := rfl
@[simp] theorem writeData_dv : (ch.writeData v).dv = ch.dv := rfl
@[simp] theorem writeData_err : (ch.writeData v).err = ch.err := rfl
@[simp] theorem writeData_digest : (ch.writeData v).digest = ch.digest := rfl
@[simp] theorem writeData_regs : (ch.writeData v).regs = ch.regs := rfl
@[simp] theorem writeData_unitUses : (ch.writeData v).unitUses = ch.unitUses := rfl
@[simp] theorem writeData_absorbed : (ch.writeData v).absorbed = ch.absorbed := rfl

@[simp] theorem visible_h : ch.visible.h = ch.h := rfl
@[simp] theorem visible_count : ch.visible.count = ch.count := rfl
@[simp] theorem visible_buf : ch.visible.buf = ch.buf := rfl
@[simp] theorem visible_data : ch.visible.data = ch.data := rfl
@[simp] theorem visible_dv : ch.visible.dv = ch.dv := rfl
@[simp] theorem visible_err : ch.visible.err = ch.err := rfl
@[simp] theorem visible_digest : ch.visible.digest = ch.digest := rfl
@[simp] theorem visible_regs : ch.visible.regs = powerOnRegs alg := rfl
@[simp] theorem visible_unitUses : ch.visible.unitUses = 0 := rfl
@[simp] theorem visible_absorbed : ch.visible.absorbed = ch.absorbed := rfl

end Channel

namespace State

variable (s : State) (c : Alg) (ch ch' : Channel c) (rest : List Access)

@[simp] theorem chan_md5 : s.chan .md5 = s.md5 := rfl
@[simp] theorem chan_sha1 : s.chan .sha1 = s.sha1 := rfl

@[simp] theorem setChan_pending : (s.setChan c ch).pending = s.pending := by cases c <;> rfl
@[simp] theorem setChan_lenOverflow : (s.setChan c ch).lenOverflow = s.lenOverflow := by cases c <;> rfl
@[simp] theorem setChan_response : (s.setChan c ch).response = s.response := by cases c <;> rfl
@[simp] theorem setChan_chan : (s.setChan c ch).chan c = ch := by cases c <;> rfl
@[simp] theorem setChan_chan_other : (s.setChan c ch).chan c.other = s.chan c.other := by cases c <;> rfl
@[simp] theorem setChan_setChan : (s.setChan c ch).setChan c ch' = s.setChan c ch' := by cases c <;> rfl
@[simp] theorem setChan_self : s.setChan c (s.chan c) = s := by cases c <;> rfl

/-- The channel read after another channel was replaced. -/
theorem setChan_chan_ne {c' : Alg} (h : c' ≠ c) : (s.setChan c ch).chan c' = s.chan c' := by
  cases c <;> cases c' <;> first | rfl | exact absurd rfl h

@[simp] theorem visible_md5 : s.visible.md5 = s.md5.visible := rfl
@[simp] theorem visible_sha1 : s.visible.sha1 = s.sha1.visible := rfl
@[simp] theorem visible_pending : s.visible.pending = s.pending := rfl
@[simp] theorem visible_lenOverflow : s.visible.lenOverflow = s.lenOverflow := rfl
@[simp] theorem visible_response : s.visible.response = s.response := rfl
@[simp] theorem visible_chan : s.visible.chan c = (s.chan c).visible := by cases c <;> rfl

/-- Replacing a channel and hiding the compressors' registers commute. -/
theorem setChan_visible : (s.setChan c ch).visible = s.visible.setChan c ch.visible := by cases c <;> rfl

/-- Replacing a channel changes nothing outside it. -/
theorem sameOutside_setChan : State.sameOutside c s (s.setChan c ch) := by cases c <;> exact ⟨rfl, rfl, rfl, rfl⟩

/-- Two states whose parts agree are the same state. -/
theorem ext_parts {s t : State} (h5 : s.md5 = t.md5) (h1 : s.sha1 = t.sha1) (hl : s.lenOverflow = t.lenOverflow)
    (hp : s.pending = t.pending) (hr : s.response = t.response) : s = t := by
  cases s; cases t; simp_all

end State

variable (s : State) (rest : List Access)

@[simp] theorem takeAccess_md5 : (takeAccess rest s).md5 = s.md5 := rfl
@[simp] theorem takeAccess_sha1 : (takeAccess rest s).sha1 = s.sha1 := rfl
@[simp] theorem takeAccess_chan (c : Alg) : (takeAccess rest s).chan c = s.chan c := by cases c <;> rfl
@[simp] theorem takeAccess_lenOverflow : (takeAccess rest s).lenOverflow = s.lenOverflow := rfl
@[simp] theorem takeAccess_pending : (takeAccess rest s).pending = rest := rfl
@[simp] theorem takeAccess_response : (takeAccess rest s).response = none := rfl

@[simp] theorem other_other (c : Alg) : c.other.other = c := by cases c <;> rfl
@[simp] theorem other_ne (c : Alg) : c.other ≠ c := by cases c <;> decide

end Sys2Proof.Machine
end

