-- ==== Sys2Proof/Laws/Absorb.lean ====
section
/-! SUPPORT. What absorbing bytes does to a channel (40_hasher_commands.md R103 to R106), said once. -/

namespace Sys2Proof.Machine.Channel

variable {alg : Alg}

/-- Absorbing one byte either only appends it, or completes a block and flushes it (R104). -/
theorem absorbByte_cases (ch : Channel alg) (x : Byte) :
    (ch.buf.length ≠ 63 ∧ ch.absorbByte x = { ch with buf := ch.buf ++ [x], absorbed := ch.absorbed + 1 })
      ∨ (ch.buf.length = 63 ∧ ch.absorbByte x =
        { ch.useUnit with
          h := compress alg ch.h (ch.buf ++ [x]), count := ch.count + 64, buf := [], absorbed := ch.absorbed + 1 }) := by
  unfold absorbByte
  by_cases h : ch.buf.length = 63
  · right; simp [h, flush, useUnit]
  · left; simp [h]

@[simp] theorem absorbByte_data (ch : Channel alg) (x : Byte) : (ch.absorbByte x).data = ch.data := by
  rcases absorbByte_cases ch x with ⟨-, h⟩ | ⟨-, h⟩ <;> simp [h]

@[simp] theorem absorbByte_dv (ch : Channel alg) (x : Byte) : (ch.absorbByte x).dv = ch.dv := by
  rcases absorbByte_cases ch x with ⟨-, h⟩ | ⟨-, h⟩ <;> simp [h]

@[simp] theorem absorbByte_err (ch : Channel alg) (x : Byte) : (ch.absorbByte x).err = ch.err := by
  rcases absorbByte_cases ch x with ⟨-, h⟩ | ⟨-, h⟩ <;> simp [h]

@[simp] theorem absorbByte_digest (ch : Channel alg) (x : Byte) : (ch.absorbByte x).digest = ch.digest := by
  rcases absorbByte_cases ch x with ⟨-, h⟩ | ⟨-, h⟩ <;> simp [h]

@[simp] theorem absorbByte_absorbed (ch : Channel alg) (x : Byte) :
    (ch.absorbByte x).absorbed = ch.absorbed + 1 := by
  rcases absorbByte_cases ch x with ⟨-, h⟩ | ⟨-, h⟩ <;> rw [h]

/-- Between accesses BUF holds at most 63 bytes (10_state.md R29 (a)), and absorbing a byte keeps it so. -/
theorem absorbByte_buf_le (ch : Channel alg) (x : Byte) (hb : ch.buf.length ≤ 63) :
    (ch.absorbByte x).buf.length ≤ 63 := by
  rcases absorbByte_cases ch x with ⟨h63, h⟩ | ⟨-, h⟩ <;> rw [h] <;> simp; omega

@[simp] theorem absorb_nil (ch : Channel alg) : ch.absorb [] = ch := rfl

@[simp] theorem absorb_cons (ch : Channel alg) (x : Byte) (xs : List Byte) :
    ch.absorb (x :: xs) = (ch.absorbByte x).absorb xs := rfl

/-- Absorbing is absorbing in pieces (R117). -/
theorem absorb_append (ch : Channel alg) (xs ys : List Byte) : ch.absorb (xs ++ ys) = (ch.absorb xs).absorb ys := by
  simp [absorb]

@[simp] theorem absorb_data (ch : Channel alg) (xs : List Byte) : (ch.absorb xs).data = ch.data := by
  induction xs generalizing ch with
  | nil => rfl
  | cons x xs ih => simp [ih]

@[simp] theorem absorb_dv (ch : Channel alg) (xs : List Byte) : (ch.absorb xs).dv = ch.dv := by
  induction xs generalizing ch with
  | nil => rfl
  | cons x xs ih => simp [ih]

@[simp] theorem absorb_err (ch : Channel alg) (xs : List Byte) : (ch.absorb xs).err = ch.err := by
  induction xs generalizing ch with
  | nil => rfl
  | cons x xs ih => simp [ih]

@[simp] theorem absorb_digest (ch : Channel alg) (xs : List Byte) : (ch.absorb xs).digest = ch.digest := by
  induction xs generalizing ch with
  | nil => rfl
  | cons x xs ih => simp [ih]

@[simp] theorem absorb_absorbed (ch : Channel alg) (xs : List Byte) :
    (ch.absorb xs).absorbed = ch.absorbed + xs.length := by
  induction xs generalizing ch with
  | nil => rfl
  | cons x xs ih => simp [ih]; omega

theorem absorb_buf_le (ch : Channel alg) (xs : List Byte) (hb : ch.buf.length ≤ 63) :
    (ch.absorb xs).buf.length ≤ 63 := by
  induction xs generalizing ch with
  | nil => exact hb
  | cons x xs ih => exact ih _ (absorbByte_buf_le ch x hb)

/-- Bytes that do not complete a block only join BUF. -/
theorem absorb_short (ch : Channel alg) (xs : List Byte) (hlt : ch.buf.length + xs.length ≤ 63) :
    ch.absorb xs = { ch with buf := ch.buf ++ xs, absorbed := ch.absorbed + xs.length } := by
  induction xs generalizing ch with
  | nil => simp
  | cons x xs ih =>
    simp only [List.length_cons] at hlt
    rcases absorbByte_cases ch x with ⟨-, h⟩ | ⟨h63, -⟩
    · rw [absorb_cons, h, ih _ (by simp; omega)]
      simp; omega
    · omega

/-- Bytes that just complete a block flush it. -/
theorem absorb_fill (ch : Channel alg) (xs : List Byte) (hne : xs ≠ []) (hlen : ch.buf.length + xs.length = 64) :
    ch.absorb xs = { ch.useUnit with
      h := compress alg ch.h (ch.buf ++ xs), count := ch.count + 64, buf := [],
      absorbed := ch.absorbed + xs.length } := by
  obtain ⟨ys, y, rfl⟩ : ∃ ys y, xs = ys ++ [y] := ⟨_, _, (List.dropLast_append_getLast hne).symm⟩
  simp only [List.length_append, List.length_cons, List.length_nil] at hlen
  rw [absorb_append, absorb_short ch ys (by omega), absorb_cons, absorb_nil]
  rcases absorbByte_cases { ch with buf := ch.buf ++ ys, absorbed := ch.absorbed + ys.length } y with ⟨h63, -⟩ | ⟨-, h⟩
  · simp at h63; omega
  · rw [h]; simp [useUnit, Nat.add_assoc]

/-- What a byte makes of H, COUNT and BUF depends on H, COUNT and BUF only. -/
theorem sameMessage_absorbByte {ch ch' : Channel alg} (h : ch.sameMessage ch') (x : Byte) :
    (ch.absorbByte x).sameMessage (ch'.absorbByte x) := by
  obtain ⟨hh, hc, hb⟩ := h
  rcases absorbByte_cases ch x with ⟨hl, e⟩ | ⟨hl, e⟩ <;>
    rcases absorbByte_cases ch' x with ⟨hl', e'⟩ | ⟨hl', e'⟩
  · rw [e, e']; exact ⟨hh, hc, by simp [hb]⟩
  · rw [hb] at hl'; exact absurd hl' hl
  · rw [hb] at hl'; exact absurd hl hl'
  · rw [e, e']; exact ⟨by simp [hh, hb], by simp [hc], rfl⟩

/-- What bytes make of H, COUNT and BUF depends on H, COUNT and BUF only (R117). -/
theorem sameMessage_absorb {ch ch' : Channel alg} (h : ch.sameMessage ch') (xs : List Byte) :
    (ch.absorb xs).sameMessage (ch'.absorb xs) := by
  induction xs generalizing ch ch' with
  | nil => exact h
  | cons x xs ih => exact ih (sameMessage_absorbByte h x)

/-- What INGEST leaves alone (R103). -/
@[simp] theorem ingest_data (ch : Channel alg) (n : Nat) : (ch.ingest n).data = ch.data := by simp [ingest]
@[simp] theorem ingest_err (ch : Channel alg) (n : Nat) : (ch.ingest n).err = ch.err := by simp [ingest]
@[simp] theorem ingest_digest (ch : Channel alg) (n : Nat) : (ch.ingest n).digest = ch.digest := by simp [ingest]

/-- What INGEST makes of the rest (R103). -/
@[simp] theorem ingest_h (ch : Channel alg) (n : Nat) : (ch.ingest n).h = (ch.absorb (dataBytes ch.data n)).h := rfl
@[simp] theorem ingest_count (ch : Channel alg) (n : Nat) :
    (ch.ingest n).count = (ch.absorb (dataBytes ch.data n)).count := rfl
@[simp] theorem ingest_buf (ch : Channel alg) (n : Nat) :
    (ch.ingest n).buf = (ch.absorb (dataBytes ch.data n)).buf := rfl
@[simp] theorem ingest_dv (ch : Channel alg) (n : Nat) : (ch.ingest n).dv = if 1 ≤ n then false else ch.dv := by
  simp [ingest, dvAfterIngest]
@[simp] theorem ingest_absorbed (ch : Channel alg) (n : Nat) : (ch.ingest n).absorbed = ch.absorbed + n := by
  simp [ingest]

/-- INGEST of no byte changes nothing (R106). -/
@[simp] theorem ingest_zero (ch : Channel alg) : ch.ingest 0 = ch := by
  simp [ingest, dvAfterIngest]

/-- What bytes make of a channel does not depend on its compressor's registers (10_state.md R33). -/
theorem absorbByte_visible (ch : Channel alg) (x : Byte) :
    (ch.visible.absorbByte x).visible = (ch.absorbByte x).visible := by
  rcases absorbByte_cases ch x with ⟨hl, e⟩ | ⟨hl, e⟩ <;>
    rcases absorbByte_cases ch.visible x with ⟨hl', e'⟩ | ⟨hl', e'⟩
  · rw [e, e']; rfl
  · exact absurd hl' hl
  · exact absurd hl hl'
  · rw [e, e']; rfl

theorem absorb_visible (ch : Channel alg) (xs : List Byte) : (ch.visible.absorb xs).visible = (ch.absorb xs).visible := by
  induction xs generalizing ch with
  | nil => rfl
  | cons x xs ih => rw [absorb_cons, absorb_cons, ← ih, absorbByte_visible, ih]

/-- What INGEST makes of a channel does not depend on its compressor's registers (R33). -/
theorem ingest_visible (ch : Channel alg) (n : Nat) : (ch.visible.ingest n).visible = (ch.ingest n).visible := by
  have key (ch : Channel alg) : (ch.ingest n).visible
      = let a := (ch.absorb (dataBytes ch.data n)).visible
        { a with dv := dvAfterIngest n a.dv } := rfl
  rw [key, key, visible_data, absorb_visible]

end Sys2Proof.Machine.Channel
end

