-- ==== Sys2Proof/Laws/Bytes.lean ====
section
/-! SUPPORT. Words as bytes (00_scope.md R10): bit 8k + r of a word is bit r of one byte, and the word and its four
bytes determine each other. -/

namespace Sys2Proof.Machine

/-- A bit of a byte lane. -/
theorem getLsbD_lane {n : Nat} (v : BitVec n) (j r : Nat) (hr : r < 8) : (lane v j).getLsbD r = v.getLsbD (8 * j + r) := by
  simp [lane, hr]

/-- A bit of the lanes' word: `byte0 | byte1 << 8 | byte2 << 16 | byte3 << 24`. -/
theorem getLsbD_word_of_bytes (a b c d : Byte) (k r : Nat) (hk : k < 4) (hr : r < 8) :
    (a.setWidth 32 ||| (b.setWidth 32 <<< 8) ||| (c.setWidth 32 <<< 16) ||| (d.setWidth 32 <<< 24) : Word).getLsbD
      (8 * k + r) = ([a, b, c, d].getD k 0).getLsbD r := by
  have hz (x : Byte) (m : Nat) (hm : 8 ≤ m) : x.getLsbD m = false := BitVec.getLsbD_of_ge x m hm
  have e1 : 8 + r - 8 = r := by omega
  have e2 : 16 + r - 8 = 8 + r := by omega
  have e3 : 16 + r - 16 = r := by omega
  have e4 : 24 + r - 8 = 16 + r := by omega
  have e5 : 24 + r - 16 = 8 + r := by omega
  have e6 : 24 + r - 24 = r := by omega
  simp only [BitVec.getLsbD_or, BitVec.getLsbD_shiftLeft, BitVec.getLsbD_setWidth]
  interval_cases k
  · simp [hr, show r < 32 by omega, show r < 16 by omega, show r < 24 by omega]
  · simp [e1, show 8 + r < 32 by omega, show 8 + r < 16 by omega, show 8 + r < 24 by omega,
      show r < 32 by omega]
  · simp [e2, e3, hz a (16 + r) (by omega), show 16 + r < 32 by omega,
      show 16 + r < 24 by omega, show r < 32 by omega]
  · simp [e4, e5, e6, hz a (24 + r) (by omega), hz b (16 + r) (by omega),
      show 24 + r < 32 by omega, show r < 32 by omega]

/-- Two words whose bits agree, byte by byte, are the same word. -/
theorem word_eq_of_bytes {v w : Word} (h : ∀ k r, k < 4 → r < 8 → v.getLsbD (8 * k + r) = w.getLsbD (8 * k + r)) :
    v = w := by
  apply BitVec.eq_of_getLsbD_eq
  intro i hi
  have := h (i / 8) (i % 8) (by omega) (by omega)
  rwa [show 8 * (i / 8) + i % 8 = i by omega] at this

/-- A bit of `le32(b, o)` (R10). -/
theorem getLsbD_le32 (b : List Byte) (o k r : Nat) (hk : k < 4) (hr : r < 8) :
    (le32 b o).getLsbD (8 * k + r) = (byteAt b (o + k)).getLsbD r := by
  unfold le32
  rw [getLsbD_word_of_bytes _ _ _ _ k r hk hr]
  interval_cases k <;> rfl

/-- `be32` is `le32` of the bytes in the other order. -/
theorem be32_eq_le32 (b : List Byte) (o : Nat) :
    be32 b o = le32 [byteAt b (o + 3), byteAt b (o + 2), byteAt b (o + 1), byteAt b o] 0 := by
  unfold be32 le32
  simp only [byteAt, List.getD_cons_zero, List.getD_cons_succ, Nat.zero_add]
  generalize BitVec.setWidth 32 (b.getD o 0) <<< 24 = x
  generalize BitVec.setWidth 32 (b.getD (o + 1) 0) <<< 16 = y
  generalize BitVec.setWidth 32 (b.getD (o + 2) 0) <<< 8 = z
  generalize BitVec.setWidth 32 (b.getD (o + 3) 0) = u
  rw [BitVec.or_assoc u, BitVec.or_assoc u, BitVec.or_comm _ u, BitVec.or_comm (x ||| y) z, BitVec.or_comm x y,
    BitVec.or_assoc z]

/-- The four bytes of a word, least significant first, are the bytes it was made of. -/
theorem leBytes32_le32 (b : List Byte) (o : Nat) :
    leBytes32 (le32 b o) = [byteAt b o, byteAt b (o + 1), byteAt b (o + 2), byteAt b (o + 3)] := by
  have key (k : Nat) (hk : k < 4) : lane (le32 b o) k = byteAt b (o + k) := by
    apply BitVec.eq_of_getLsbD_eq
    intro r hr
    rw [getLsbD_lane _ _ _ hr, getLsbD_le32 _ _ _ _ hk hr]
  simp [leBytes32, key]

/-- A word read back, little-endian, where its bytes stand. -/
theorem le32_of_leBytes32 (w : Word) (b : List Byte) (o : Nat) (h : ∀ k < 4, byteAt b (o + k) = lane w k) :
    le32 b o = w := by
  apply word_eq_of_bytes
  intro k r hk hr
  rw [getLsbD_le32 _ _ _ _ hk hr, h k hk, getLsbD_lane _ _ _ hr]

/-- A word read back, big-endian, where its bytes stand. -/
theorem be32_of_beBytes32 (w : Word) (b : List Byte) (o : Nat) (h : ∀ k < 4, byteAt b (o + k) = lane w (3 - k)) :
    be32 b o = w := by
  rw [be32_eq_le32]
  refine le32_of_leBytes32 w _ 0 fun k hk => ?_
  interval_cases k
  · exact h 3 (by decide)
  · exact h 2 (by decide)
  · exact h 1 (by decide)
  · exact h 0 (by decide)

/-- A byte behind a prefix. -/
theorem byteAt_append_right (b c : List Byte) (i : Nat) : byteAt (b ++ c) (b.length + i) = byteAt c i := by
  unfold byteAt
  rw [List.getD_append_right _ _ _ _ (by omega), Nat.add_sub_cancel_left]

/-- A byte of a prefix. -/
theorem byteAt_append_left (b c : List Byte) (i : Nat) (h : i < b.length) : byteAt (b ++ c) i = byteAt b i := by
  simp [byteAt, List.getD_eq_getElem?_getD, List.getElem?_append_left h]

@[simp] theorem leBytes32_length (w : Word) : (leBytes32 w).length = 4 := rfl
@[simp] theorem beBytes32_length (w : Word) : (beBytes32 w).length = 4 := rfl

end Sys2Proof.Machine
end

