-- ==== Sys2Proof/Laws/Decode.lean ====
section
/-! SUPPORT. What the decoders do (30_encoding.md R84, 20_memory.md R60, R61), said once. -/

namespace Sys2Proof

/-- A word that is none of the eight legal ones is rejected (R84, R86): RSV = 0 leaves 128 words to look at. -/
theorem decodeCommand_of_not_legal (v : Word) (h : v ∉ legalCommandWords) : decodeCommand v = .reject := by
  by_cases hr : rsvField v ≠ 0
  · rw [decodeCommand, if_pos hr]
  · have hlt : v.toNat < 128 := by
      have hz := congrArg BitVec.toNat (not_not.mp hr)
      simp [rsvField, BitVec.extractLsb'_toNat, Nat.shiftRight_eq_div_pow] at hz
      have := v.isLt
      omega
    have key : ∀ n < 128, BitVec.ofNat 32 n ∉ legalCommandWords → decodeCommand (BitVec.ofNat 32 n) = .reject := by
      decide +kernel
    have := key v.toNat hlt
    rw [BitVec.ofNat_toNat, BitVec.setWidth_eq] at this
    exact this h

/-- A legal word is not rejected (R84). -/
theorem decodeCommand_ne_reject_of_legal (v : Word) (h : v ∈ legalCommandWords) : decodeCommand v ≠ .reject := by
  simp only [legalCommandWords, List.mem_cons, List.not_mem_nil, or_false] at h
  rcases h with rfl | rfl | rfl | rfl | rfl | rfl | rfl | rfl <;> decide +kernel

/-- A word is rejected just when it is not legal (R84, R86). -/
theorem decodeCommand_eq_reject_iff (v : Word) : decodeCommand v = .reject ↔ v ∉ legalCommandWords :=
  ⟨fun h hv => decodeCommand_ne_reject_of_legal v hv h, decodeCommand_of_not_legal v⟩

/-- The window offset of a register names its channel and the register again (R60, R110). -/
@[simp] theorem offsetChannel_windowOffset (c : Alg) (r : BitVec 6) : offsetChannel (windowOffset c r) = c := by
  revert r; cases c <;> decide +kernel

@[simp] theorem offsetRegister_windowOffset (c : Alg) (r : BitVec 6) : offsetRegister (windowOffset c r) = r := by
  revert r; cases c <;> decide +kernel

/-- Every window offset is that of its channel and register (R60). -/
@[simp] theorem windowOffset_parts (off : BitVec 7) :
    windowOffset (offsetChannel off) (offsetRegister off) = off := by
  revert off; decide +kernel

/-- The window offset of a register as a number: `0x40*c + r` (R60). -/
theorem windowOffset_toNat (c : Alg) (r : BitVec 6) :
    (windowOffset c r).toNat = (if c = .sha1 then 0x40 else 0) + r.toNat := by
  revert r; cases c <;> decide +kernel

/-- Alignment of a window offset is alignment of its register offset (R61). -/
theorem offsetAligned_offsetRegister (off : BitVec 7) :
    offsetAligned (offsetRegister off) = decide (off.toNat % 4 = 0) := by
  revert off; decide +kernel

theorem windowOffset_aligned (c : Alg) (r : BitVec 6) :
    decide ((windowOffset c r).toNat % 4 = 0) = offsetAligned r := by
  rw [← offsetAligned_offsetRegister, offsetRegister_windowOffset]

/-- An access passes the check just when it is an aligned 32-bit one (R61). -/
theorem checkAccess_eq_none_iff (off : BitVec 7) (bytes : Nat) :
    checkAccess off bytes = none ↔ bytes = 4 ∧ off.toNat % 4 = 0 := by
  unfold checkAccess
  split
  · simp_all
  · split <;> simp_all

/-- The access to a register passes the check just when its offset is aligned (R61). -/
theorem checkAccess_windowOffset (c : Alg) (r : BitVec 6) :
    checkAccess (windowOffset c r) 4 = if offsetAligned r then none else some .misaligned := by
  unfold checkAccess
  rw [← windowOffset_aligned c r]
  by_cases h : (windowOffset c r).toNat % 4 = 0 <;> simp [h]

/-- What a decoded access is (R110, R111). -/
theorem decode_eq_ok {a : Access} {i : Instr} (h : decode a = .ok i) :
    ∃ off : BitVec 7, off.toNat % 4 = 0 ∧
      ((a = .read off 4 ∧ i = .rdReg (offsetChannel off) (offsetRegister off))
        ∨ ∃ v, a = .write off 4 v ∧ i = decodeWrite (offsetChannel off) (offsetRegister off) v) := by
  cases a with
  | read off bytes =>
    simp only [decode] at h
    split at h
    · cases h
    · rename_i hc
      obtain ⟨rfl, h4⟩ := (checkAccess_eq_none_iff _ _).mp hc
      exact ⟨off, h4, .inl ⟨rfl, by cases h; rfl⟩⟩
  | write off bytes v =>
    simp only [decode] at h
    split at h
    · cases h
    · rename_i hc
      obtain ⟨rfl, h4⟩ := (checkAccess_eq_none_iff _ _).mp hc
      exact ⟨off, h4, .inr ⟨v, rfl, by cases h; rfl⟩⟩

end Sys2Proof
end

