-- ==== Sys2Proof/Laws/Exec.lean ====
section
/-! SUPPORT. What an instruction and a step can do, said once: every rule about the whole machine is derived from
`exec_cases` and `step_cases`. -/

namespace Sys2Proof.Machine

variable {s t : State} {i : Instr} {c : Alg}

/-- The INGEST of each size is the shared operation (40_hasher_commands.md R103). -/
theorem exec_ingestInstr (c : Alg) (nb : Fin 5) (s : State) :
    exec (ingestInstr c nb) s = .next (s.setChan c ((s.chan c).ingest nb.val)) := by
  fin_cases nb <;> rfl

/-- FINALIZE within the bound of LEN_OVERFLOW (R107, 41_padding_digest.md R146). -/
theorem finalizeRefused_of_mayFinalize (h : s.mayFinalize c) : finalizeRefused c s = false := by
  rcases h with h | h
  · simp [finalizeRefused, h]
  · have : ¬ 2 ^ 61 ≤ (s.chan c).absorbed := by omega
    simp [finalizeRefused, Config.lengthLimit, -Nat.reducePow, this]

theorem exec_finalize (h : s.mayFinalize c) :
    exec (.finalize c) s = .next (s.setChan c (s.chan c).finalize) := by
  simp [exec, execFinalize, finalizeRefused_of_mayFinalize h]

/-- A write of CMD executes the command (R100, R111). -/
theorem exec_wrReg_cmd (c : Alg) (v : Word) (s : State) : exec (.wrReg c 0x00 v) s = executeCommand c v s := rfl

/-- A command word that is not rejected does what its instruction does (R100). -/
theorem executeCommand_eq_exec {v : Word} (h : (decodeCommand v).instr c = some i) :
    executeCommand c v s = exec i s := by
  unfold executeCommand
  cases hd : decodeCommand v with
  | ingest nb => rw [hd] at h; fin_cases nb <;> cases h <;> rfl
  | reject => rw [hd] at h; cases h
  | _ => rw [hd] at h; cases h; rfl

/-- A reserved word only sets ERR (30_encoding.md R86). -/
theorem executeCommand_reserved {v : Word} (h : v ∉ legalCommandWords) :
    executeCommand c v s = .next (s.setChan c (s.chan c).reject) := by
  simp [executeCommand, decodeCommand_of_not_legal v h]

/-- Everything a command can do. -/
theorem executeCommand_cases {v : Word} (h : executeCommand c v s = .next t) :
    t = s
      ∨ (t = s.setChan c (s.chan c).reset ∧ executeCommand c v s = exec (.reset c) s)
      ∨ (∃ nb : Fin 5, t = s.setChan c ((s.chan c).ingest nb.val)
          ∧ executeCommand c v s = exec (ingestInstr c nb) s)
      ∨ (finalizeRefused c s = false ∧ t = s.setChan c (s.chan c).finalize
          ∧ executeCommand c v s = exec (.finalize c) s)
      ∨ (v ∉ legalCommandWords ∧ t = s.setChan c (s.chan c).reject) := by
  unfold executeCommand at h ⊢
  cases hd : decodeCommand v with
  | nop => rw [hd] at h; cases h; exact .inl rfl
  | reset => rw [hd] at h; cases h; exact .inr (.inl ⟨rfl, rfl⟩)
  | ingest nb =>
    rw [hd] at h; cases h
    exact .inr (.inr (.inl ⟨nb, rfl, (exec_ingestInstr c nb s).symm⟩))
  | finalize =>
    rw [hd] at h
    simp only [execFinalize] at h
    split at h
    · cases h
    · rename_i hf
      cases h
      exact .inr (.inr (.inr (.inl ⟨by simpa using hf, rfl, rfl⟩)))
  | reject =>
    rw [hd] at h; cases h
    exact .inr (.inr (.inr (.inr ⟨(decodeCommand_eq_reject_iff v).mp hd, rfl⟩)))

/-- Everything an instruction can do, on the channel `i.channel` it acts on (R100, R109 to R111). -/
theorem exec_cases (h : exec i s = .next t) :
    t = s
      ∨ (t = s.setChan i.channel (s.chan i.channel).reset ∧ exec i s = exec (.reset i.channel) s)
      ∨ (∃ nb : Fin 5, t = s.setChan i.channel ((s.chan i.channel).ingest nb.val)
          ∧ exec i s = exec (ingestInstr i.channel nb) s)
      ∨ (finalizeRefused i.channel s = false ∧ t = s.setChan i.channel (s.chan i.channel).finalize
          ∧ exec i s = exec (.finalize i.channel) s)
      ∨ (∃ v, (i = .wrData i.channel v ∨ i = .wrReg i.channel 0x04 v)
          ∧ t = s.setChan i.channel ((s.chan i.channel).writeData v))
      ∨ (∃ v, i = .wrReg i.channel 0x00 v ∧ v ∉ legalCommandWords
          ∧ t = s.setChan i.channel (s.chan i.channel).reject)
      ∨ (∃ r, i = .rdReg i.channel r
          ∧ t = { s with response := some ((s.chan i.channel).readRegister r) }) := by
  cases i with
  | nop c => cases h; exact .inl rfl
  | reset c => cases h; exact .inr (.inl ⟨rfl, rfl⟩)
  | ingest0 c => cases h; exact .inr (.inr (.inl ⟨0, rfl, rfl⟩))
  | ingest1 c => cases h; exact .inr (.inr (.inl ⟨1, rfl, rfl⟩))
  | ingest2 c => cases h; exact .inr (.inr (.inl ⟨2, rfl, rfl⟩))
  | ingest3 c => cases h; exact .inr (.inr (.inl ⟨3, rfl, rfl⟩))
  | ingest4 c => cases h; exact .inr (.inr (.inl ⟨4, rfl, rfl⟩))
  | finalize c =>
    simp only [exec, execFinalize] at h
    split at h
    · cases h
    · rename_i hf
      cases h
      exact .inr (.inr (.inr (.inl ⟨by simpa [Instr.channel] using hf, rfl, rfl⟩)))
  | wrData c v => cases h; exact .inr (.inr (.inr (.inr (.inl ⟨v, .inl rfl, rfl⟩))))
  | wrReg c r v =>
    have hr : offsetAligned r = true := by
      by_contra hn
      simp [exec, execWrReg, hn] at h
    by_cases h0 : r = 0x00
    · subst h0
      rw [exec_wrReg_cmd] at h ⊢
      rcases executeCommand_cases h with e | e | e | e | ⟨hv, e⟩
      · exact .inl e
      · exact .inr (.inl e)
      · exact .inr (.inr (.inl e))
      · exact .inr (.inr (.inr (.inl e)))
      · exact .inr (.inr (.inr (.inr (.inr (.inl ⟨v, rfl, hv, e⟩)))))
    · by_cases h4 : r = 0x04
      · subst h4; cases h
        exact .inr (.inr (.inr (.inr (.inl ⟨v, .inr rfl, rfl⟩))))
      · simp only [exec, execWrReg, hr, if_true, if_neg h0, if_neg h4] at h
        cases h; exact .inl rfl
  | rdReg c r =>
    simp only [exec, execRdReg] at h
    split at h
    · cases h
      exact .inr (.inr (.inr (.inr (.inr (.inr ⟨r, rfl, rfl⟩)))))
    · cases h

/-- Everything a step can do: it takes the oldest access, decodes it, and runs its instruction (20_memory.md R73). -/
theorem step_cases (h : step s = .next t) :
    ∃ (a : Access) (rest : List Access) (i : Instr), s.pending = a :: rest ∧ decode a = .ok i
      ∧ exec i (takeAccess rest s) = .next t := by
  unfold step at h
  cases hp : s.pending with
  | nil => rw [hp] at h; cases h
  | cons a rest =>
    rw [hp] at h
    simp only at h
    cases hd : decode a with
    | error e => rw [hd] at h; cases h
    | ok i => rw [hd] at h; exact ⟨a, rest, i, rfl, hd, h⟩

/-- No instruction changes the port's waiting accesses or the parameter. -/
theorem exec_keeps_port (h : exec i s = .next t) : t.pending = s.pending ∧ t.lenOverflow = s.lenOverflow := by
  rcases exec_cases h with rfl | ⟨rfl, -⟩ | ⟨nb, rfl, -⟩ | ⟨-, rfl, -⟩ | ⟨v, -, rfl⟩ | ⟨v, -, -, rfl⟩ | ⟨r, -, rfl⟩ <;>
    simp

end Sys2Proof.Machine
end

