-- ==== Sys2Proof/Laws/Host.lean ====
section
/-! SUPPORT. The host's side: the word a put writes (30_encoding.md R90), and what a host sees of its reads
(20_memory.md R62, R73). -/

namespace Sys2Proof.Machine

/-- A lane of the word a put writes (R90). -/
theorem lane_putWord (nb : Fin 5) (imm : Word) (j : Nat) (hj : j < 4) :
    lane (putWord nb imm) j = if j < nb.val then lane imm j else 0 := by
  have h : lane (putWord nb imm) j = byteAt (dataBytes imm nb.val ++ zeros (4 - nb.val)) j := by
    apply BitVec.eq_of_getLsbD_eq
    intro r hr
    rw [getLsbD_lane _ _ _ hr, putWord, getLsbD_le32 _ _ _ _ hj hr, Nat.zero_add]
  rw [h]
  fin_cases nb <;> interval_cases j <;> rfl

/-- The INGEST of a put takes the operand's lanes (R90, 20_memory.md R65). -/
@[simp] theorem dataBytes_putWord (nb : Fin 5) (imm : Word) : dataBytes (putWord nb imm) nb.val = dataBytes imm nb.val := by
  refine List.map_congr_left fun j hj => ?_
  have hj' : j < nb.val := List.mem_range.mp hj
  rw [lane_putWord nb imm j (by omega), if_pos hj']

variable {s t : State} {n : Nat}

/-- A host's view of a step that goes on (R73). -/
theorem hostReads_succ (h : step s = .next t) :
    hostReads (n + 1) s = (hostReads n t).map fun r => (t.response.toList ++ r.1, r.2) := by
  simp only [hostReads, h]

/-- A host's view of steps is its view of the first and then of the rest. -/
theorem hostReads_add (m : Nat) : hostReads (m + n) s
    = (hostReads m s).bind fun a => (hostReads n a.2).map fun b => (a.1 ++ b.1, b.2) := by
  induction m generalizing s with
  | zero => simp [hostReads]
  | succ m ih =>
    rw [Nat.add_right_comm]
    simp only [hostReads]
    cases step s with
    | next t =>
      simp only [ih]
      cases hostReads m t with
      | none => rfl
      | some a => cases h : hostReads n a.2 <;> simp [h]
    | fault r => rfl
    | refused r => rfl

/-- A named register's read, as a step (30_encoding.md R88, 40_hasher_commands.md R110). -/
theorem step_asmRd {c : Alg} {reg : RegName} {rest : List Access} (h : s.pending = asmRd c reg :: rest) :
    step s = .next { s with pending := rest, response := some ((s.chan c).readRegister (regOffset reg)) } := by
  have ha : offsetAligned (regOffset reg) = true := by
    cases reg with
    | digest k => fin_cases k <;> rfl
    | _ => decide
  have hd : decode (asmRd c reg) = .ok (.rdReg c (regOffset reg)) := by
    simp [asmRd, decode, checkAccess_windowOffset, ha]
  simp only [step, h, hd, exec, execRdReg, ha, if_true, takeAccess_chan]
  rfl

end Sys2Proof.Machine
end

