-- ==== Sys2Proof/Laws/PerInstr.lean ====
section
/-! SUPPORT. One lemma per instruction: the access that a well-formed instruction encodes to is a 32-bit access at an
aligned offset of the instruction's own channel (20_memory.md R60, R61; 30_encoding.md R88, R89). -/

namespace Sys2Proof.Laws.EncodedForm

/-- The access of a well-formed instruction is 4 bytes wide, aligned, and in the window of its channel. -/
def Statement (i : Instr) : Prop :=
  i.WellFormed → ∃ off : BitVec 7, (encode i = .read off 4 ∨ ∃ v, encode i = .write off 4 v)
    ∧ off.toNat % 4 = 0 ∧ offsetChannel off = i.channel

/-- A write at the CMD register has the form. -/
theorem cmd (c : Alg) (op : BitVec 4) (nb : BitVec 3) (i : Instr) (h : encode i = encodeCommand c op nb)
    (hc : i.channel = c) : Statement i := fun _ =>
  ⟨windowOffset c 0x00, .inr ⟨_, h⟩, by cases c <;> decide, by simp [hc]⟩

theorem nop (c : Alg) : Statement (.nop c) := cmd c _ _ _ rfl rfl
theorem reset (c : Alg) : Statement (.reset c) := cmd c _ _ _ rfl rfl
theorem ingest0 (c : Alg) : Statement (.ingest0 c) := cmd c _ _ _ rfl rfl
theorem ingest1 (c : Alg) : Statement (.ingest1 c) := cmd c _ _ _ rfl rfl
theorem ingest2 (c : Alg) : Statement (.ingest2 c) := cmd c _ _ _ rfl rfl
theorem ingest3 (c : Alg) : Statement (.ingest3 c) := cmd c _ _ _ rfl rfl
theorem ingest4 (c : Alg) : Statement (.ingest4 c) := cmd c _ _ _ rfl rfl
theorem finalize (c : Alg) : Statement (.finalize c) := cmd c _ _ _ rfl rfl

theorem wrData (c : Alg) (v : Word) : Statement (.wrData c v) := fun _ =>
  ⟨windowOffset c 0x04, .inr ⟨v, rfl⟩, by cases c <;> decide, by simp [Instr.channel]⟩

theorem wrReg (c : Alg) (r : BitVec 6) (v : Word) : Statement (.wrReg c r v) := fun h =>
  have ha : offsetAligned r = true := by
    have h' : (offsetAligned r && r != 0x04 && !(r == 0x00 && legalCommandWords.contains v)) = true := h
    simp_all
  ⟨windowOffset c r, .inr ⟨v, rfl⟩, of_decide_eq_true ((windowOffset_aligned c r).trans ha), by simp [Instr.channel]⟩

theorem rdReg (c : Alg) (r : BitVec 6) : Statement (.rdReg c r) := fun h =>
  ⟨windowOffset c r, .inl rfl, of_decide_eq_true ((windowOffset_aligned c r).trans h), by simp [Instr.channel]⟩

end Sys2Proof.Laws.EncodedForm
end

