-- ==== Sys2Proof/Tests/Slice0.lean ====
section
/-! SUPPORT. Tests of the model. Expected values are those of spec/95_test_vectors.md (V1 to V40) and of the rules and
tables named at each test; none is the model's own answer. A theorem `witness_…` shows that the hypotheses of the
statement of that name can be met, at the ends of their ranges. -/

namespace Sys2Proof.Tests

open Sys2Proof Sys2Proof.Machine

-- one theorem after the other: the kernel evaluations of this file would else each hold a thread
set_option Elab.async false

/-! ## Small states -/

/-- A channel with n bytes 0x61 in BUF, that COUNT, and so many bytes absorbed. -/
def chanWith (c : Alg) (n : Nat) (count : DWord) (absorbed : Nat) : Channel c :=
  { Channel.powerOn c with buf := List.replicate n 0x61, count := count, absorbed := absorbed }

/-- The machine after power-on, but for one channel. -/
def stateWith (c : Alg) (ch : Channel c) : State := State.reset.setChan c ch

/-- The machine after power-on with accesses waiting. -/
def loaded (as : List Access) : State := { State.reset with pending := as }

/-- The MD5 channel of V11 after row 3 of its table: DATA written, nothing absorbed. -/
def v11Data : State := stateWith .md5 { Channel.powerOn .md5 with data := 0x44434241 }

/-- The MD5 channel of V11 after row 5: 'ABCD' absorbed, FINALIZE done (its digest left out). -/
def v11Peeked : State :=
  stateWith .md5 { Channel.powerOn .md5 with data := 0x44434241, buf := [0x41, 0x42, 0x43, 0x44], dv := true, absorbed := 4 }

/-- The MD5 channel of V11 after row 8: a fifth byte, and a reserved word written. -/
def v11Err : State :=
  stateWith .md5
    { Channel.powerOn .md5 with data := 0x44434241, buf := [0x41, 0x42, 0x43, 0x44, 0x41], err := true, absorbed := 5 }

/-- A channel that has absorbed "abc". -/
def abcChan (c : Alg) : Channel c :=
  { Channel.powerOn c with data := 0x00636261, buf := [0x61, 0x62, 0x63], absorbed := 3 }

/-- The state an outcome goes on in; the machine after power-on where it stops. -/
def after : Host.Outcome State Fault Refusal → State
  | .next t => t
  | _ => State.reset

/-- The outcome is a next state. -/
def goesOn : Host.Outcome State Fault Refusal → Bool
  | .next _ => true
  | _ => false

theorem exec_after {o : Host.Outcome State Fault Refusal} (h : goesOn o = true) : o = .next (after o) := by
  cases o <;> first | rfl | cases h

/-! ## Well-formedness: an ill-formed term for each check -/

theorem test_wf_wrReg_misaligned : (Instr.wrReg .md5 0x0A 0).wellFormed = false := by decide
theorem test_wf_wrReg_data_offset : (Instr.wrReg .sha1 0x04 7).wellFormed = false := by decide
theorem test_wf_wrReg_legal_word : (Instr.wrReg .md5 0x00 0x00000042).wellFormed = false := by decide +kernel
theorem test_wf_rdReg_misaligned : (Instr.rdReg .sha1 0x3F).wellFormed = false := by decide
theorem test_wf_wrReg_reserved_word : (Instr.wrReg .md5 0x00 0x00000052).wellFormed = true := by decide +kernel

/-! ## Decoding: words written out from R80, R84 and R35 (the words of V10) -/

theorem test_decode_nop : decodeTableWord 32 0b00000000000000000000000000000000 = some (.nop .md5) := by decide +kernel
theorem test_decode_reset : decodeTableWord 32 0b00000000000000000000000000000001 = some (.reset .md5) := by
  decide +kernel
theorem test_decode_ingest0 : decodeTableWord 32 0b0000010 = some (.ingest0 .md5) := by decide +kernel
theorem test_decode_ingest1 : decodeTableWord 32 0b0010010 = some (.ingest1 .md5) := by decide +kernel
theorem test_decode_ingest2 : decodeTableWord 32 0b0100010 = some (.ingest2 .md5) := by decide +kernel
theorem test_decode_ingest3 : decodeTableWord 32 0b0110010 = some (.ingest3 .md5) := by decide +kernel
theorem test_decode_ingest4 : decodeTableWord 32 0b1000010 = some (.ingest4 .md5) := by decide +kernel
theorem test_decode_finalize : decode (.write 0b1000000 4 0b0000011) = .ok (.finalize .sha1) := by decide +kernel
theorem test_decode_wrData : decode (.write 0b1000100 4 0x00636261) = .ok (.wrData .sha1 0x00636261) := by decide +kernel
theorem test_decode_wrData_row : decodeTableWord 8 0b00000100 = some (.wrData .md5 0) := by decide +kernel
theorem test_decode_wrReg : decode (.write 0b0001100 4 0x12345678) = .ok (.wrReg .md5 0x0C 0x12345678) := by
  decide +kernel
theorem test_decode_rdReg : decode (.read 0b1110000 4) = .ok (.rdReg .sha1 0x30) := by decide +kernel
theorem test_decode_rdReg_row : decodeTableWord 8 0b11101000 = some (.rdReg .sha1 0x28) := by decide +kernel

/-- The rejected words of V10. -/
theorem test_decode_rejects :
    [0x52, 0x62, 0x72, 0x10, 0x11, 0x13, 0x04, 0x0f, 0x80, 0x81, 0x80000002, 0xffffffff, 0x102].all
      (fun v : Word => decodeCommand v == .reject) = true := by decide +kernel

/-- The host places a row's word, and the next step runs it (NOP, the DATA row, the last command row). -/
theorem test_fetch_nop : goesOn (step (State.reset.withFetchWord 32 0x00000000)) = true := by decide +kernel
theorem test_fetch_ingest : (after (step (State.reset.withFetchWord 32 0x00000032))).md5.buf = [0, 0, 0] := by
  decide +kernel
theorem test_fetch_wrData : (after (step (State.reset.withFetchWord 40 (0x05 + 256 * 0xdeadbeef - 1)))).md5.data
    = 0xdeadbeef := by decide +kernel
theorem test_fetch_rdReg : (after (step (State.reset.withFetchWord 8 0b11001000))).response = some 0x00010000 := by
  decide +kernel

/-! ## One step of each instruction (V11, V12, V13) -/

/-- V11 row 1. -/
theorem test_nop_status : (after (exec (.nop .md5) v11Peeked)).md5.status = 0x00000401 := by decide +kernel

/-- V11 row 2: only DATA. -/
theorem test_wrData_only_data : exec (.wrData .md5 0x44434241) State.reset = .next v11Data := rfl

/-- V13. -/
theorem test_wrData_reads_back :
    (after (exec (.rdReg .sha1 0x04) (after (exec (.wrData .sha1 0xdeadbeef) State.reset)))).response
      = some 0xdeadbeef := by decide +kernel

/-- V11 row 3. -/
theorem test_ingest0_keeps_dv : (after (exec (.ingest0 .md5) v11Peeked)).md5.dv = true := by decide +kernel

/-- V11 row 4: BUF = 41 42 43 44, STATUS = 0x00000400. -/
theorem test_ingest4_lane_order : (after (exec (.ingest4 .md5) v11Data)).md5.buf = [0x41, 0x42, 0x43, 0x44] := by
  decide +kernel
theorem test_ingest4_status : (after (exec (.ingest4 .md5) v11Data)).md5.status = 0x00000400 := by decide +kernel

/-- V11 row 7: DV falls, one byte 0x41 joins. -/
theorem test_ingest1_status : (after (exec (.ingest1 .md5) v11Peeked)).md5.status = 0x00000500 := by decide +kernel
theorem test_ingest1_byte : (after (exec (.ingest1 .md5) v11Peeked)).md5.buf = [0x41, 0x42, 0x43, 0x44, 0x41] := by
  decide +kernel

/-- V11 row 9: INGEST 2 runs with ERR set. -/
theorem test_ingest2_status : (after (exec (.ingest2 .md5) v11Err)).md5.status = 0x00000702 := by decide +kernel

/-- R103, the example: BUFLEN 62, three bytes, 'A' and 'B' complete the block and 'C' stays. -/
theorem test_ingest3_block_boundary :
    (after (exec (.ingest3 .sha1) (stateWith .sha1 { chanWith .sha1 62 0 62 with data := 0x44434241 }))).sha1.buf
      = [0x43] := by decide +kernel
theorem test_ingest3_count :
    (after (exec (.ingest3 .sha1) (stateWith .sha1 { chanWith .sha1 62 0 62 with data := 0x44434241 }))).sha1.count
      = 64 := by decide +kernel

/-- V12: the block "a" x 61 and "abc", with 'd' left over. -/
theorem test_ingest4_compresses :
    (after (exec (.ingest4 .sha1) (stateWith .sha1 { chanWith .sha1 61 0 61 with data := 0x64636261 }))).sha1.h
      = #v[0x95f83ce1, 0x472a21db, 0x8a6dce41, 0x45a4587e, 0x116c0e7b] := by decide +kernel

/-- V2, V4: FINALIZE after "abc". -/
theorem test_finalize_md5_abc : (after (exec (.finalize .md5) (stateWith .md5 (abcChan .md5)))).md5.digest
    = #v[0x98500190, 0xb04fd23c, 0x7d3f96d6, 0x727fe128, 0x00000000] := by decide +kernel
theorem test_finalize_sha1_abc : (after (exec (.finalize .sha1) (stateWith .sha1 (abcChan .sha1)))).sha1.digest
    = #v[0x363e99a9, 0x6a810647, 0x71253eba, 0x6cc25078, 0x9dd8d09c] := by decide +kernel

/-- V11 row 11: RESET clears STATUS, and DATA stays. -/
theorem test_reset_status : (after (exec (.reset .md5) v11Err)).md5.status = 0x00000000 := by decide +kernel
theorem test_reset_keeps_data : (after (exec (.reset .md5) v11Err)).md5.data = 0x44434241 := by decide +kernel

/-- V11 row 8: a reserved word. -/
theorem test_wrReg_reserved_word :
    (after (exec (.wrReg .md5 0x00 0x00000052) v11Peeked)).md5.status = 0x00000403 := by decide +kernel

/-- V11 row 10: a write to STATUS is ignored. -/
theorem test_wrReg_status_ignored : exec (.wrReg .md5 0x08 0xffffffff) v11Err = .next v11Err := rfl

/-- R39: COUNT_HI is the upper half. -/
theorem test_rdReg_count_hi :
    (after (exec (.rdReg .md5 0x10) (stateWith .md5 (chanWith .md5 0 0x0123456789abcdc0 0)))).response
      = some 0x01234567 := by decide +kernel

/-- R38: all STATUS fields at once. -/
theorem test_rdReg_status :
    (after (exec (.rdReg .sha1 0x08)
      (stateWith .sha1 { chanWith .sha1 63 0 63 with dv := true, err := true }))).response = some 0x00013f03 := by
  decide +kernel

/-! ## Padding, packing and hex (V14, V15, V40) -/

/-- V14, n = 55: the marker is byte 55 and the length field follows at once. -/
theorem test_final_data_55 : finalData .md5 (List.replicate 55 0x61) 0
    = List.replicate 55 0x61 ++ [0x80] ++ [0xb8, 0x01, 0, 0, 0, 0, 0, 0] := by decide +kernel

/-- V14, n = 56: two blocks, big-endian length. -/
theorem test_final_data_56 : finalData .sha1 (List.replicate 56 0x61) 0
    = List.replicate 56 0x61 ++ [0x80] ++ List.replicate 63 0 ++ [0, 0, 0, 0, 0, 0, 0x01, 0xc0] := by decide +kernel

/-- V14, the BitLen corners. -/
theorem test_bitLen_max : bitLen 0x1fffffffffffffc0 63 = 0xfffffffffffffff8 := by decide +kernel
theorem test_bitLen_wrap : bitLen 0xffffffffffffffc0 3 = 0xfffffffffffffe18 := by decide +kernel

/-- V15: SHA-1 registers hold the state words with their bytes reversed. -/
theorem test_pack_sha1 :
    packDigest (serialise .sha1 #v[0xa9993e36, 0x4706816a, 0xba3e2571, 0x7850c26c, 0x9cd0d89d])
      = #v[0x363e99a9, 0x6a810647, 0x71253eba, 0x6cc25078, 0x9dd8d09c] := by decide +kernel

/-- V40. -/
theorem test_hex : hexDigest [0x00, 0x0f, 0xf0, 0xff] = "000ff0ff".toList := by decide +kernel

/-- P1: the encodings of the host program for MD5 of "abc". -/
theorem test_program_P1 : hostSequence .md5 [0x61, 0x62, 0x63] =
    [.write 0x00 4 0x00000001, .write 0x04 4 0x00636261, .write 0x00 4 0x00000032, .write 0x00 4 0x00000003,
      .read 0x08 4, .read 0x20 4, .read 0x24 4, .read 0x28 4, .read 0x2c 4] := by decide +kernel

/-- R90: the lanes at or above nb are written as 0. -/
theorem test_put_zeroes_upper_lanes :
    asmPut .md5 1 0xffffffff = [.write 0x04 4 0x000000ff, .write 0x00 4 0x00000012] := by decide +kernel

/-! ## The compressors (V16, V20, V21, V30, V31, and the tables R179 and R216) -/

theorem test_rotl : (rotl 0x12345678 30, rotl 0x80000001 5, rotl 0x80000000 1) = (0x048d159e, 0x00000030, 0x00000001) := by
  decide +kernel
theorem test_md5_functions :
    (md5F 0xF0F0F0F0 0xCCCCCCCC 0xAAAAAAAA, md5G 0xF0F0F0F0 0xCCCCCCCC 0xAAAAAAAA,
      md5H 0xF0F0F0F0 0xCCCCCCCC 0xAAAAAAAA, md5I 0xF0F0F0F0 0xCCCCCCCC 0xAAAAAAAA)
      = (0xcacacaca, 0xe4e4e4e4, 0x96969696, 0x39393939) := by decide +kernel
theorem test_sha1_functions :
    (sha1Ch 0xF0F0F0F0 0xCCCCCCCC 0xAAAAAAAA, sha1Parity 0xF0F0F0F0 0xCCCCCCCC 0xAAAAAAAA,
      sha1Maj 0xF0F0F0F0 0xCCCCCCCC 0xAAAAAAAA) = (0xcacacaca, 0x96969696, 0xe8e8e8e8) := by decide +kernel

/-- R179, the k column. -/
theorem test_md5_word_schedule : (List.range 64).map md5WordIndex =
    [0, 1, 2, 3, 4, 5, 6, 7, 8, 9, 10, 11, 12, 13, 14, 15] ++ [1, 6, 11, 0, 5, 10, 15, 4, 9, 14, 3, 8, 13, 2, 7, 12]
      ++ [5, 8, 11, 14, 1, 4, 7, 10, 13, 0, 3, 6, 9, 12, 15, 2] ++ [0, 7, 14, 5, 12, 3, 10, 1, 8, 15, 6, 13, 4, 11, 2, 9] := by
  decide +kernel

/-- R179, rows 0, 17, 35 and 63 of the s and T columns. -/
theorem test_md5_rows : [0, 17, 35, 63].map (fun i => (md5Rotation i, md5Constant i))
    = [(7, 0xd76aa478), (9, 0xc040b340), (23, 0xfde5380c), (21, 0xeb86d391)] := by decide +kernel

/-- R179: the table has 64 rows. -/
theorem test_md5_rom_length : md5Constants.length = 64 := by decide

/-- V20, step 0. -/
theorem test_md5_step0 :
    md5Step [0x80636261] ⟨0x67452301, 0xefcdab89, 0x98badcfe, 0x10325476⟩ 0
      = ⟨0x10325476, 0xd6d117b4, 0xefcdab89, 0x98badcfe⟩ := by decide +kernel

/-- V21: the bytes 00 01 .. 3f from the initial value, and an all-ones block from an all-ones state. -/
theorem test_md5_compress_count :
    md5Compress (initialHash .md5) ((List.range 64).map (BitVec.ofNat 8))
      = #v[0x9144d9ca, 0xd901e4c9, 0x72fc5b38, 0x625ff51e] := by decide +kernel
theorem test_md5_compress_ones :
    md5Compress (Vector.replicate 4 0xffffffff) (List.replicate 64 0xff)
      = #v[0x6cba9129, 0x29ffd12a, 0x8b9bb7d3, 0xa9a0a3c1] := by decide +kernel

/-- R216, the round constants at the ends of the rounds. -/
theorem test_sha1_constants : [0, 19, 20, 39, 40, 59, 60, 79].map sha1Constant
    = [0x5a827999, 0x5a827999, 0x6ed9eba1, 0x6ed9eba1, 0x8f1bbcdc, 0x8f1bbcdc, 0xca62c1d6, 0xca62c1d6] := by
  decide +kernel

/-- V30, step 0. -/
theorem test_sha1_step0 :
    sha1Mix ⟨0x67452301, 0xefcdab89, 0x98badcfe, 0x10325476, 0xc3d2e1f0⟩ 0 0x61626380
      = ⟨0x0116fc33, 0x67452301, 0x7bf36ae2, 0x98badcfe, 0x10325476⟩ := by decide +kernel

/-- V31, the schedule of the block 00 01 .. 3f. -/
theorem test_sha1_schedule :
    (let w := sha1Schedule ((List.range 64).map (BitVec.ofNat 8))
     [w.getD 0 0, w.getD 15 0, w.getD 16 0, w.getD 79 0]) = [0x00010203, 0x3c3d3e3f, 0x38383838, 0xc47818a4] := by
  decide +kernel

/-- V31: the bytes 00 01 .. 3f from the initial value. -/
theorem test_sha1_compress_count :
    sha1Compress (initialHash .sha1) ((List.range 64).map (BitVec.ofNat 8))
      = #v[0xb9ac757b, 0xbc297925, 0x2e227274, 0x06872f94, 0xcbea56a1] := by decide +kernel

/-! ## Witnesses of the statements' hypotheses -/

theorem witness_DecodeOfEncodeIsTheInstruction : Instr.WellFormed (.wrReg .sha1 0x3C 5) := by decide +kernel
theorem witness_EncodeOfDecodeIsTheAccess : decode (.write 0x7C 4 5) = .ok (.wrReg .sha1 0x3C 5) := by decide +kernel
theorem witness_ExactlyEightCommandWordsDecode : (0x00000052 : Word) ∉ legalCommandWords := by decide +kernel

theorem witness_StepRunsTheDecodedInstruction :
    (loaded [.write 0x40 4 1, .read 0x08 4]).pending = .write 0x40 4 1 :: [.read 0x08 4]
      ∧ decode (.write 0x40 4 1) = .ok (.reset .sha1) := by decide +kernel

/-- A clause for the width, one for the alignment, one for both; a read and a write. -/
theorem witness_WrongWidthOrMisalignedAccessIsRefused :
    ((loaded [.read 0x7C 2]).pending = .read 0x7C 2 :: [] ∧ 2 ≠ 4 ∧ (0x7C : BitVec 7).toNat % 4 = 0)
      ∧ ((loaded [.write 0x7F 4 0]).pending = .write 0x7F 4 0 :: [] ∧ (0x7F : BitVec 7).toNat % 4 ≠ 0)
      ∧ ((loaded [.read 0x01 8]).pending = .read 0x01 8 :: [] ∧ 8 ≠ 4 ∧ (0x01 : BitVec 7).toNat % 4 ≠ 0) := by decide

theorem witness_NoAccessIsNoStep : State.reset.pending = [] := rfl

theorem witness_EveryAlignedAccessCompletes :
    (loaded [.read 0x7C 4]).lenOverflow = .wrap ∧ (loaded [.read 0x7C 4]).pending = .read 0x7C 4 :: []
      ∧ (0x7C : BitVec 7).toNat % 4 = 0 := by decide

/-- The first address past the window. -/
theorem witness_WindowAddressesReachTheirRegister :
    Config.base + 0x80 < Config.base ∨ Config.base + 0x7F < Config.base + 0x80 := .inr (by omega)

theorem witness_NopAndIngestZeroChangeNothing :
    (opField 0x00000010 = 0 ∧ (0x00000010 : Word) ≠ 0) ∧ opField 0x80000000 = 0 := by decide +kernel

/-- Both branches at their ends: 63 buffered bytes with none or one more, 60 with three or four more. -/
theorem witness_IngestAbsorbsTheLanesOfData :
    ((stateWith .md5 (chanWith .md5 63 0 63)).chan .md5).buf.length = 63
      ∧ ((chanWith .md5 63 0 63).buf ++ dataBytes 0 0).length < 64
      ∧ ¬ ((chanWith .md5 63 0 63).buf ++ dataBytes 0 1).length < 64
      ∧ ((chanWith .sha1 60 0 60).buf ++ dataBytes 0 3).length < 64
      ∧ ¬ ((chanWith .sha1 60 0 60).buf ++ dataBytes 0 4).length < 64 := by decide +kernel

theorem witness_IngestTakesLaneZeroFirst :
    (0x44434241 : Word).toNat % 2 ^ (8 * (2 : Fin 5).val) = (0x00004241 : Word).toNat % 2 ^ (8 * (2 : Fin 5).val)
      ∧ (v11Data.chan .md5).data = 0x44434241
      ∧ (stateWith .md5 { Channel.powerOn .md5 with data := 0x00004241 }).visible
        = (v11Data.setChan .md5 { v11Data.chan .md5 with data := 0x00004241 }).visible := by decide +kernel

/-- A refusing machine whose MD5 channel has absorbed that many bytes. -/
def refusing (n : Nat) : State := { stateWith .md5 (chanWith .md5 0 0 n) with lenOverflow := .refuse }

/-- Within the bound, by either setting of LEN_OVERFLOW, at its last length. -/
theorem witness_mayFinalize : State.reset.mayFinalize .md5 ∧ (refusing (2 ^ 61 - 1)).mayFinalize .md5 :=
  ⟨.inl rfl, .inr (by decide)⟩

/-- FinalizeDeliversTheDigest, FinalizeTwiceGivesTheSameDigest and EarlierFinalizesLeaveNoTrace assume this only. -/
theorem witness_FinalizeDeliversTheDigest : (stateWith .sha1 (abcChan .sha1)).mayFinalize .sha1 := .inl rfl
theorem witness_FinalizeTwiceGivesTheSameDigest : (refusing 0).mayFinalize .md5 := .inr (by decide)
theorem witness_EarlierFinalizesLeaveNoTrace :
    (stateWith .md5 (abcChan .md5)).mayFinalize .md5 ∧ (stateWith .md5 (abcChan .md5)).lenOverflow = .wrap :=
  ⟨.inl rfl, rfl⟩

theorem witness_LenOverflowGovernsLongMessages :
    State.reset.lenOverflow = .wrap
      ∧ ((refusing (2 ^ 61)).lenOverflow = .refuse ∧ 2 ^ 61 - 1 < ((refusing (2 ^ 61)).chan .md5).absorbed)
      ∧ ((refusing (2 ^ 61 - 1)).lenOverflow = .refuse ∧ ((refusing (2 ^ 61 - 1)).chan .md5).absorbed ≤ 2 ^ 61 - 1) := by
  decide

theorem witness_ReadReturnsTheRegister :
    (0x00 : BitVec 6).toNat % 4 = 0 ∧ (0x30 : BitVec 6).toNat % 4 = 0 ∧ (0x3C : BitVec 6).toNat % 4 = 0 := by decide
theorem witness_ReadsHaveNoSideEffects : (0x3C : BitVec 6).toNat % 4 = 0 := by decide
theorem witness_MisalignedRegisterOffsetIsRefused :
    (0x01 : BitVec 6).toNat % 4 ≠ 0 ∧ (0x3F : BitVec 6).toNat % 4 ≠ 0 := by decide
theorem witness_StatusFields :
    ((stateWith .sha1 (chanWith .sha1 63 0 63)).chan .sha1).buf.length = 63
      ∧ (State.reset.chan .md5).buf.length ≤ 63 := by decide +kernel
theorem witness_CountHalves :
    ((stateWith .md5 (chanWith .md5 0 0xffffffffffffffc0 0)).chan .md5).count.toNat % 64 = 0 := by decide +kernel
theorem witness_OtherWritesAreIgnored :
    ((0x08 : BitVec 6).toNat % 4 = 0 ∧ (0x08 : BitVec 6) ≠ 0x00 ∧ (0x08 : BitVec 6) ≠ 0x04)
      ∧ (0x3C : BitVec 6) ∈ [(0x14 : BitVec 6), 0x18, 0x1C, 0x34, 0x38, 0x3C] := by decide
theorem witness_DataWriteStoresTheWord :
    Instr.wrReg .md5 0x04 7 = .wrData .md5 7 ∨ Instr.wrReg .md5 0x04 7 = .wrReg .md5 0x04 7 := .inr rfl
theorem witness_CmdWriteExecutesTheDecodedCommand :
    (decodeCommand 0x42).instr .sha1 = some (.ingest4 .sha1) ∧ (decodeCommand 0x52).instr .sha1 = none := by
  decide +kernel
theorem witness_ReservedWordOnlySetsErr :
    (0x00000080 : Word) ∉ legalCommandWords ∧ (0xffffffff : Word) ∉ legalCommandWords := by decide +kernel
theorem witness_ErrDoesNotGateCommands :
    Command.instr .md5 (.ingest 2) = some (.ingest2 .md5)
      ∧ exec (.ingest2 .md5) v11Data = .next (after (exec (.ingest2 .md5) v11Data)) := ⟨rfl, exec_after rfl⟩

/-- ERR set and then cleared by RESET; ERR clear and then set by a reserved word. -/
theorem witness_ErrIsSticky :
    (exec (.reset .md5) v11Err = .next (after (exec (.reset .md5) v11Err)) ∧ (v11Err.chan .md5).err = true
        ∧ ((after (exec (.reset .md5) v11Err)).chan .md5).err = false)
      ∧ (exec (.wrReg .md5 0x00 0x52) v11Data = .next (after (exec (.wrReg .md5 0x00 0x52) v11Data))
        ∧ (v11Data.chan .md5).err = false
        ∧ ((after (exec (.wrReg .md5 0x00 0x52) v11Data)).chan .md5).err = true) :=
  ⟨⟨exec_after rfl, rfl, rfl⟩, exec_after (by decide +kernel), rfl, by decide +kernel⟩

/-- A compressing INGEST. -/
theorem witness_HashWrittenByWholeBlocksOrReset :
    ((stateWith .md5 (chanWith .md5 63 0 63)).chan .md5).buf.length ≤ 63
      ∧ exec (.ingest1 .md5) (stateWith .md5 (chanWith .md5 63 0 63))
        = .next (after (exec (.ingest1 .md5) (stateWith .md5 (chanWith .md5 63 0 63)))) :=
  ⟨by decide +kernel, exec_after rfl⟩

/-- DataWrittenByDataWritesOnly, DigestWrittenByFinalizeOrReset and BufWrittenByResetOrIngest assume a next state
only. -/
theorem witness_DataWrittenByDataWritesOnly : exec (.wrData .md5 7) v11Err = .next (after (exec (.wrData .md5 7) v11Err)) :=
  exec_after rfl
theorem witness_DigestWrittenByFinalizeOrReset :
    exec (.finalize .md5) v11Err = .next (after (exec (.finalize .md5) v11Err)) := exec_after rfl
theorem witness_BufWrittenByResetOrIngest :
    exec (.ingest1 .md5) v11Peeked = .next (after (exec (.ingest1 .md5) v11Peeked)) := exec_after rfl

/-- A FINALIZE within its bound; an INGEST of one byte; an instruction that leaves DV; any next state. -/
theorem witness_DvWrittenByFinalizeResetOrIngest :
    v11Peeked.mayFinalize .md5 ∧ 1 ≤ (1 : Fin 5).val ∧ (0x52 : Word) ∉ legalCommandWords
      ∧ exec (.ingest1 .md5) v11Peeked = .next (after (exec (.ingest1 .md5) v11Peeked)) :=
  ⟨.inl rfl, by decide, by decide +kernel, exec_after rfl⟩

theorem witness_CountWrapsWithoutAFlag :
    ((stateWith .sha1 (chanWith .sha1 63 0xffffffffffffffc0 0)).chan .sha1).buf.length = 63
      ∧ ((stateWith .sha1 (chanWith .sha1 63 0xffffffffffffffc0 0)).chan .sha1).count = BitVec.ofNat 64 (2 ^ 64 - 64) := by
  decide +kernel

/-- Two machines that agree on the MD5 channel and differ on the other; an interleaved sequence that runs. -/
theorem witness_ChannelsAreIndependent :
    (exec (.ingest4 .md5) v11Data = .next (after (exec (.ingest4 .md5) v11Data)))
      ∧ ((v11Data.chan .md5).visible = ((v11Data.setChan .sha1 (abcChan .sha1)).chan .md5).visible
        ∧ v11Data ≠ v11Data.setChan .sha1 (abcChan .sha1)
        ∧ v11Data.lenOverflow = (v11Data.setChan .sha1 (abcChan .sha1)).lenOverflow
        ∧ v11Data.response = (v11Data.setChan .sha1 (abcChan .sha1)).response)
      ∧ (execAll [.wrData .sha1 1, .ingest1 .md5, .reset .sha1] v11Data
        = .next (after (execAll [.wrData .sha1 1, .ingest1 .md5, .reset .sha1] v11Data))) :=
  ⟨exec_after rfl, by decide +kernel, exec_after rfl⟩

/-- Two different machines that differ in a compressor's registers only. -/
theorem witness_CompressorRegistersAreUnobservable :
    (stateWith .md5 { Channel.powerOn .md5 with unitUses := 1, regs := { powerOnRegs .md5 with counter := 63 } }).visible
      = State.reset.visible
    ∧ stateWith .md5 { Channel.powerOn .md5 with unitUses := 1, regs := { powerOnRegs .md5 with counter := 63 } }
      ≠ State.reset := by decide +kernel

theorem abc_represents (c : Alg) : (abcChan c).Represents [0x61, 0x62, 0x63] :=
  ⟨by cases c <;> decide, by cases c <;> decide, by cases c <;> decide, rfl, fun h => absurd h (by cases c <;> decide)⟩

/-- A machine with a message and an access that steps. -/
theorem witness_EveryStepKeepsTheInvariant :
    ({ stateWith .md5 (abcChan .md5) with pending := [.write 0x00 4 0x00000012] } : State).Inv
      ∧ step { stateWith .md5 (abcChan .md5) with pending := [.write 0x00 4 0x00000012] }
        = .next (after (step { stateWith .md5 (abcChan .md5) with pending := [.write 0x00 4 0x00000012] })) :=
  ⟨⟨⟨_, abc_represents .md5⟩, ⟨[], rfl, rfl, rfl, rfl, fun h => absurd h (by decide)⟩, rfl⟩,
    exec_after (by decide +kernel)⟩

theorem witness_IngestExtendsTheMessage :
    ((stateWith .sha1 (abcChan .sha1)).chan .sha1).Represents [0x61, 0x62, 0x63] := abc_represents .sha1

/-- A message to finalise; and a DV that an INGEST clears. -/
theorem witness_FinalizeGivesTheDigestOfTheMessage :
    (((stateWith .md5 (abcChan .md5)).chan .md5).Represents [0x61, 0x62, 0x63]
        ∧ (stateWith .md5 (abcChan .md5)).mayFinalize .md5)
      ∧ (exec (.ingest1 .md5) v11Peeked = .next (after (exec (.ingest1 .md5) v11Peeked))
        ∧ (v11Peeked.chan .md5).dv = true ∧ ((after (exec (.ingest1 .md5) v11Peeked)).chan .md5).dv = false) :=
  ⟨⟨abc_represents .md5, .inl rfl⟩, exec_after rfl, rfl, rfl⟩

/-- "abcd" as one put, and as two INGESTs of the same lanes' halves; the machine may finalise after it. -/
theorem witness_ChunkingDoesNotMatter :
    feedBytes (State.reset.chan .md5).data [.data 0x64636261, .ingest 4]
      = feedBytes (State.reset.chan .md5).data [.data 0x00006261, .ingest 2, .ingest 0, .data 0x00006463, .ingest 2]
    ∧ (after (execAll (feedInstrs .md5 [.data 0x64636261, .ingest 4]) State.reset)).mayFinalize .md5 :=
  ⟨by decide +kernel, .inl rfl⟩

/-- Each clause of the Fresh label: an INGEST of one byte; a NOP, a FINALIZE and a reserved word that run; a Fresh
channel and its message. -/
theorem witness_FreshLabel :
    1 ≤ (1 : Fin 5).val
      ∧ exec (.nop .md5) v11Data = .next v11Data
      ∧ exec (.finalize .md5) v11Data = .next (after (exec (.finalize .md5) v11Data))
      ∧ ((0x52 : Word) ∉ legalCommandWords
        ∧ exec (.wrReg .md5 0x00 0x52) v11Data = .next (after (exec (.wrReg .md5 0x00 0x52) v11Data)))
      ∧ ((Channel.powerOn .sha1).Represents [] ∧ (Channel.powerOn .sha1).Fresh) :=
  ⟨by decide, rfl, exec_after rfl, ⟨by decide +kernel, exec_after (by decide +kernel)⟩,
    ⟨rfl, rfl, rfl, rfl, fun h => absurd h (by decide)⟩, rfl⟩

theorem witness_FourStepIngestIsBytewise : (chanWith .md5 63 0 63).buf.length = 63 := by decide +kernel

theorem witness_OneshotHashesTheMessage :
    ((loaded (asmOneshot .md5 [0x61] ++ [.read 0x08 4])).lenOverflow = .wrap ∨ [(0x61 : Byte)].length ≤ 2 ^ 61 - 1)
      ∧ (loaded (asmOneshot .md5 [0x61] ++ [.read 0x08 4])).pending = asmOneshot .md5 [0x61] ++ [.read 0x08 4] :=
  ⟨.inl rfl, rfl⟩

/-- Both cases at their ends. -/
theorem witness_FinalDataIsOneOrTwoBlocks :
    (List.replicate 55 (0x61 : Byte)).length ≤ 55 ∧ ¬ (List.replicate 56 (0x61 : Byte)).length ≤ 55
      ∧ (List.replicate 63 (0x61 : Byte)).length ≤ 63
      ∧ ((stateWith .md5 (chanWith .md5 63 0 63)).chan .md5).buf.length ≤ 63
      ∧ (stateWith .md5 (chanWith .md5 63 0 63)).mayFinalize .md5 :=
  ⟨by decide +kernel, by decide +kernel, by decide +kernel, by decide +kernel, .inl rfl⟩
theorem witness_LengthFieldInTheLastTwoWords : (List.replicate 63 (0x61 : Byte)).length ≤ 63 := by decide +kernel
theorem witness_BitLenIsTheMessageBitLength : (abcChan .md5).Represents [0x61, 0x62, 0x63] := abc_represents .md5
theorem witness_CompressorPortsCarryTheCompression : (List.replicate 64 (0xff : Byte)).length = 64 := by decide +kernel

/-- The first and the last rolled step, at both ends of the window of 16 words. -/
theorem witness_RollingScheduleIsEquivalent :
    (16 ≤ 16 ∧ 16 < 80 ∧ 16 ≤ 0 + 16 ∧ 0 < 16) ∧ (16 ≤ 79 ∧ 79 < 80 ∧ 79 ≤ 78 + 16 ∧ 78 < 79) := by decide

/-- A machine whose DIGEST holds a serialised hash state and whose port holds readdigest and one access more. -/
theorem witness_HostRecoversTheDigest :
    (loaded (asmReadDigest .sha1 ++ [.read 0x08 4])).pending = asmReadDigest .sha1 ++ [.read 0x08 4]
      ∧ ((loaded (asmReadDigest .sha1 ++ [.read 0x08 4])).chan .sha1).digest
        = packDigest (serialise .sha1 (Vector.replicate 5 0)) := by decide +kernel

theorem witness_HostSequenceReadsTheDigest :
    ((loaded (hostSequence .sha1 [0x61])).lenOverflow = .wrap ∨ [(0x61 : Byte)].length ≤ 2 ^ 61 - 1)
      ∧ (loaded (hostSequence .sha1 [0x61])).pending = hostSequence .sha1 [0x61] ++ [] :=
  ⟨.inl rfl, (List.append_nil _).symm⟩

theorem witness_RegistersAfterPowerOn : (0x3C : BitVec 6).toNat % 4 = 0 ∧ (0x08 : BitVec 6).toNat % 4 = 0 := by decide

end Sys2Proof.Tests
end

section
/-! PROOFS. The compressors' registers decide nothing (10_state.md R33, 93_implementation_defined.md U3): an
instruction, and so a step, does the same to a machine and to the machine with those registers hidden. -/

namespace Sys2Proof.Machine

namespace Channel

variable {alg : Alg} (ch : Channel alg)

@[simp] theorem visible_visible : ch.visible.visible = ch.visible := rfl
@[simp] theorem visible_reset_visible : ch.visible.reset.visible = ch.reset.visible := rfl
@[simp] theorem visible_finalize_visible : ch.visible.finalize.visible = ch.finalize.visible := rfl
@[simp] theorem visible_reject_visible : ch.visible.reject.visible = ch.reject.visible := rfl
@[simp] theorem visible_writeData_visible (v : Word) :
    (ch.visible.writeData v).visible = (ch.writeData v).visible := rfl
@[simp] theorem visible_readRegister (r : BitVec 6) : ch.visible.readRegister r = ch.readRegister r := rfl

end Channel

variable (c : Alg) (s : State)

@[simp] theorem State.visible_visible : s.visible.visible = s.visible := rfl

@[simp] theorem finalizeRefused_visible : finalizeRefused c s.visible = finalizeRefused c s := by
  simp [finalizeRefused]

/-- An operation on one channel that does not read the registers there does not read them in the machine. -/
theorem visibleOutcome_setChan {f : Channel c → Channel c}
    (hf : (f (s.chan c).visible).visible = (f (s.chan c)).visible) :
    visibleOutcome (.next (s.visible.setChan c (f (s.visible.chan c))))
      = visibleOutcome (.next (s.setChan c (f (s.chan c)))) := by
  simp only [visibleOutcome, State.setChan_visible, State.visible_visible, State.visible_chan, hf]

theorem visibleOutcome_ingest (nb : Nat) : visibleOutcome (ingest nb c s.visible) = visibleOutcome (ingest nb c s) :=
  visibleOutcome_setChan c s (f := (·.ingest nb)) (Channel.ingest_visible _ nb)

theorem visibleOutcome_execReset : visibleOutcome (execReset c s.visible) = visibleOutcome (execReset c s) :=
  visibleOutcome_setChan c s (f := Channel.reset) (Channel.visible_reset_visible _)

theorem visibleOutcome_execFinalize :
    visibleOutcome (execFinalize c s.visible) = visibleOutcome (execFinalize c s) := by
  unfold execFinalize
  rw [finalizeRefused_visible]
  split
  · rfl
  · exact visibleOutcome_setChan c s (f := Channel.finalize) (Channel.visible_finalize_visible _)

theorem visibleOutcome_execWrData (v : Word) :
    visibleOutcome (execWrData c v s.visible) = visibleOutcome (execWrData c v s) :=
  visibleOutcome_setChan c s (f := (·.writeData v)) (Channel.visible_writeData_visible _ v)

theorem visibleOutcome_executeCommand (v : Word) :
    visibleOutcome (executeCommand c v s.visible) = visibleOutcome (executeCommand c v s) := by
  unfold executeCommand
  cases decodeCommand v with
  | nop => rfl
  | reset => exact visibleOutcome_execReset c s
  | ingest nb => exact visibleOutcome_ingest c s nb
  | finalize => exact visibleOutcome_execFinalize c s
  | reject => exact visibleOutcome_setChan c s (f := Channel.reject) (Channel.visible_reject_visible _)

theorem visibleOutcome_execWrReg (r : BitVec 6) (v : Word) :
    visibleOutcome (execWrReg c r v s.visible) = visibleOutcome (execWrReg c r v s) := by
  unfold execWrReg
  split
  · split
    · exact visibleOutcome_executeCommand c s v
    · split
      · exact visibleOutcome_execWrData c s v
      · rfl
  · rfl

theorem visibleOutcome_execRdReg (r : BitVec 6) :
    visibleOutcome (execRdReg c r s.visible) = visibleOutcome (execRdReg c r s) := by
  unfold execRdReg
  split
  · rw [State.visible_chan, Channel.visible_readRegister]; rfl
  · rfl

/-- No instruction depends on the compressors' registers (R33). -/
theorem visibleOutcome_exec (i : Instr) : visibleOutcome (exec i s.visible) = visibleOutcome (exec i s) := by
  cases i with
  | nop c => rfl
  | reset c => exact visibleOutcome_execReset c s
  | ingest0 c => exact visibleOutcome_ingest c s 0
  | ingest1 c => exact visibleOutcome_ingest c s 1
  | ingest2 c => exact visibleOutcome_ingest c s 2
  | ingest3 c => exact visibleOutcome_ingest c s 3
  | ingest4 c => exact visibleOutcome_ingest c s 4
  | finalize c => exact visibleOutcome_execFinalize c s
  | wrData c v => exact visibleOutcome_execWrData c s v
  | wrReg c r v => exact visibleOutcome_execWrReg c s r v
  | rdReg c r => exact visibleOutcome_execRdReg c s r

/-- No step depends on the compressors' registers (R33). -/
theorem visibleOutcome_step : visibleOutcome (step s.visible) = visibleOutcome (step s) := by
  unfold step
  rw [State.visible_pending]
  cases s.pending with
  | nil => rfl
  | cons a rest =>
    dsimp only
    cases decode a with
    | error e => rfl
    | ok i => exact visibleOutcome_exec (takeAccess rest s) i

/-- Settles O36: both machines step as the one machine with the registers hidden. -/
theorem compressorRegistersAreUnobservable : Obligations.CompressorRegistersAreUnobservable := by
  intro s s' h
  rw [← visibleOutcome_step s, h, visibleOutcome_step s']

end Sys2Proof.Machine
end

section
/-! PROOFS. The message a channel has absorbed (10_state.md R29, 40_hasher_commands.md R113, R114): what absorbing a
byte makes of it, that FINALIZE computes its digest, and that every instruction keeps the invariant of each channel. -/

namespace Sys2Proof.Machine

variable {alg : Alg} {ch : Channel alg} {m : List Byte}

/-! ## Whole blocks of a message -/

/-- A message keeps its whole blocks when a byte joins an incomplete block. -/
theorem wholeBlocks_append_byte (x : Byte) (h : m.length % 64 ≠ 63) : wholeBlocks (m ++ [x]) = wholeBlocks m := by
  simp only [wholeBlocks, List.length_append, List.length_singleton]
  omega

/-- A message gains a block with the byte that completes it. -/
theorem wholeBlocks_append_last_byte (x : Byte) (h : m.length % 64 = 63) :
    wholeBlocks (m ++ [x]) = wholeBlocks m + 1 := by
  simp only [wholeBlocks, List.length_append, List.length_singleton]
  omega

theorem wholeBlocks_mul_le (m : List Byte) : 64 * wholeBlocks m ≤ m.length := by
  unfold wholeBlocks
  omega

/-- A block that ends a byte sequence is what stands from its offset on. -/
theorem blockAt_eq_drop {b : List Byte} {j : Nat} (h : b.length = 64 * j + 64) : blockAt b j = b.drop (64 * j) :=
  List.take_of_length_le (by rw [List.length_drop]; omega)

/-! ## The channel that has absorbed a message -/

namespace Channel

/-- The part of `Represents` that absorbing keeps byte by byte: the channel's H, COUNT, BUF and count of bytes are
those of the message m (10_state.md R29). What DV says of DIGEST waits until the INGEST ends. -/
structure Holds (m : List Byte) (ch : Channel alg) : Prop where
  hash : ch.h = compressBlocks alg (initialHash alg) m (wholeBlocks m)
  count : ch.count = BitVec.ofNat 64 (64 * wholeBlocks m)
  buf : ch.buf = m.drop (64 * wholeBlocks m)
  absorbed : ch.absorbed = m.length

theorem Represents.holds (h : ch.Represents m) : ch.Holds m := ⟨h.hash, h.count, h.buf, h.absorbed⟩

namespace Holds

/-- BUF has the bytes behind the last whole block (R29 (a), (c)). -/
theorem buf_length (h : ch.Holds m) : ch.buf.length = m.length % 64 := by
  rw [h.buf, List.length_drop, wholeBlocks]
  omega

theorem absorbByte (h : ch.Holds m) (x : Byte) : (ch.absorbByte x).Holds (m ++ [x]) := by
  have hlen := h.buf_length
  have hle := wholeBlocks_mul_le m
  obtain ⟨hh, hc, hb, ha⟩ := h
  have hbx : ch.buf ++ [x] = (m ++ [x]).drop (64 * wholeBlocks m) := by
    rw [List.drop_append_of_le_length hle, hb]
  rcases absorbByte_cases ch x with ⟨h63, e⟩ | ⟨h63, e⟩ <;> rw [hlen] at h63 <;> rw [e]
  · have hw := wholeBlocks_append_byte x h63
    exact ⟨by rw [hw, compressBlocks_append_left _ _ _ _ hle, hh], by rw [hw, hc], by rw [hw, hbx],
      by simp [ha]⟩
  · have hw := wholeBlocks_append_last_byte x h63
    have hfull : (m ++ [x]).length = 64 * wholeBlocks m + 64 := by
      simp only [wholeBlocks, List.length_append, List.length_singleton]
      omega
    refine ⟨?_, ?_, ?_, by simp [ha]⟩
    · rw [hw, compressBlocks_succ, compressBlocks_append_left _ _ _ _ hle, blockAt_eq_drop hfull, ← hbx, hh]
    · rw [hw, Nat.mul_add, BitVec.ofNat_add, ← hc]; rfl
    · rw [hw, List.drop_of_length_le (by omega)]

theorem absorb (h : ch.Holds m) (xs : List Byte) : (ch.absorb xs).Holds (m ++ xs) := by
  induction xs generalizing ch m with
  | nil => simpa using h
  | cons x xs ih => simpa using ih (h.absorbByte x)

/-- COUNT and BUF give the bit length of the message, modulo 2^64 (41_padding_digest.md R144). -/
theorem bitLen_eq (h : ch.Holds m) : bitLen ch.count ch.buf.length = BitVec.ofNat 64 (8 * m.length) := by
  apply BitVec.eq_of_toNat_eq
  rw [bitLen, h.buf_length, h.count]
  simp only [BitVec.toNat_ofNat, wholeBlocks]
  omega

/-- The padding FINALIZE makes from COUNT and BUF is the message's own (R140, R142). -/
theorem append_pad (h : ch.Holds m) : m ++ pad alg ch.buf ch.count = paddedMessage alg m := by
  rw [pad, h.bitLen_eq, h.buf_length, padZeros_mod, paddedMessage]
  simp

/-- The final data are the blocks of the padded message that are not yet in H (R147). -/
theorem finalData_eq (h : ch.Holds m) :
    finalData alg ch.buf ch.count = (paddedMessage alg m).drop (64 * wholeBlocks m) := by
  rw [← h.append_pad, List.drop_append_of_le_length (wholeBlocks_mul_le m), ← h.buf, finalData]

/-- FINALIZE's hash is that of the padded message (R147). -/
theorem finalHash_eq (h : ch.Holds m) : finalHash alg ch.h ch.buf ch.count
    = compressBlocks alg (initialHash alg) (paddedMessage alg m) ((paddedMessage alg m).length / 64) := by
  have hle := wholeBlocks_mul_le m
  have hpre : compressBlocks alg (initialHash alg) (paddedMessage alg m) (wholeBlocks m) = ch.h := by
    rw [← h.append_pad, compressBlocks_append_left _ _ _ _ hle, h.hash]
  have hblocks : (paddedMessage alg m).length / 64
      = wholeBlocks m + ((paddedMessage alg m).drop (64 * wholeBlocks m)).length / 64 := by
    have hlen := congrArg List.length h.append_pad
    rw [List.length_append] at hlen
    rw [List.length_drop]
    omega
  rw [finalHash, h.finalData_eq, hblocks, compressBlocks_add, hpre]

/-- FINALIZE computes the digest of the message (40_hasher_commands.md R114). -/
theorem finalDigest_eq (h : ch.Holds m) : ch.finalDigest = packDigest (messageDigest alg m) := by
  rw [finalDigest, digestBytesOf, h.finalHash_eq, messageDigest]

end Holds

/-- An INGEST extends the message, and leaves DV only where it extends it by nothing (R113, R25). -/
theorem Represents.ingest (h : ch.Represents m) (nb : Nat) :
    (ch.ingest nb).Represents (m ++ dataBytes ch.data nb) := by
  obtain rfl | (hpos : 1 ≤ nb) := Nat.eq_zero_or_pos nb
  · simpa using h
  · obtain ⟨hh, hc, hb, ha⟩ := h.holds.absorb (dataBytes ch.data nb)
    exact ⟨hh, hc, hb, ha, fun hdv => by simp [hpos] at hdv⟩

theorem Represents.finalize (h : ch.Represents m) : ch.finalize.Represents m := by
  obtain ⟨hh, hc, hb, ha⟩ := h.holds
  exact ⟨hh, hc, hb, ha, fun _ => h.holds.finalDigest_eq⟩

/-- After RESET the channel stands for the empty message (40_hasher_commands.md R102). -/
theorem reset_represents (ch : Channel alg) : ch.reset.Represents [] :=
  ⟨rfl, rfl, rfl, rfl, fun h => Bool.noConfusion h⟩

/-- DATA and ERR are no part of what a channel says of its message. -/
theorem Represents.writeData (h : ch.Represents m) (v : Word) : (ch.writeData v).Represents m :=
  ⟨h.hash, h.count, h.buf, h.absorbed, h.digest⟩

theorem Represents.reject (h : ch.Represents m) : ch.reject.Represents m :=
  ⟨h.hash, h.count, h.buf, h.absorbed, h.digest⟩

end Channel

/-! ## DIGEST4 of the MD5 channel (10_state.md R27) -/

theorem serialise_md5_length (h : Vector Word 4) : (serialise .md5 h).length = 16 := by
  simp [serialise, List.length_flatMap, Alg.hashWords]

/-- A digest of 16 bytes leaves the last of the five words 0 (20_memory.md R70). -/
theorem packDigest_last {d : List Byte} (hd : d.length = 16) : (packDigest d)[4] = 0 := by
  have hzero : ∀ k, k < 4 → byteAt (d ++ zeros 4) (16 + k) = 0 := by
    intro k hk
    rw [← hd, byteAt_append_right]
    interval_cases k <;> rfl
  change le32 (d ++ zeros (20 - d.length)) 16 = 0
  rw [hd]
  exact le32_of_leBytes32 0 _ 16 fun k hk => by rw [hzero k hk]; interval_cases k <;> rfl

theorem finalDigest_md5_last (ch : Channel .md5) : ch.finalDigest[4] = 0 :=
  packDigest_last (serialise_md5_length _)

/-! ## The invariant of a channel, kept by every instruction -/

/-- The invariant of the machine, channel by channel: the channel stands for some message (R29), and DIGEST4 is 0 on
the MD5 channel (R27). -/
def Channel.Inv (ch : Channel alg) : Prop := (∃ m, ch.Represents m) ∧ (alg = .md5 → ch.digest[4] = 0)

theorem State.inv_iff {s : State} : s.Inv ↔ ∀ c, (s.chan c).Inv := by
  constructor
  · rintro ⟨h5, h1, h4⟩ (_ | _)
    · exact ⟨h5, fun _ => h4⟩
    · exact ⟨h1, fun h => Alg.noConfusion h⟩
  · intro h
    exact ⟨(h .md5).1, (h .sha1).1, (h .md5).2 rfl⟩

namespace Channel.Inv

theorem reset (ch : Channel alg) : ch.reset.Inv := ⟨⟨[], ch.reset_represents⟩, fun _ => rfl⟩

theorem ingest (h : ch.Inv) (nb : Nat) : (ch.ingest nb).Inv := by
  obtain ⟨⟨m, hm⟩, h4⟩ := h
  exact ⟨⟨_, hm.ingest nb⟩, by simpa using h4⟩

theorem finalize (h : ch.Inv) : ch.finalize.Inv := by
  obtain ⟨⟨m, hm⟩, -⟩ := h
  refine ⟨⟨m, hm.finalize⟩, ?_⟩
  rintro rfl
  exact finalDigest_md5_last ch

theorem writeData (h : ch.Inv) (v : Word) : (ch.writeData v).Inv := by
  obtain ⟨⟨m, hm⟩, h4⟩ := h
  exact ⟨⟨m, hm.writeData v⟩, h4⟩

theorem reject (h : ch.Inv) : ch.reject.Inv := by
  obtain ⟨⟨m, hm⟩, h4⟩ := h
  exact ⟨⟨m, hm.reject⟩, h4⟩

end Channel.Inv

/-- Replacing one channel keeps the invariant where the new channel has it. -/
theorem State.Inv.setChan {s : State} (h : s.Inv) {c : Alg} {ch : Channel c} (hch : ch.Inv) :
    (s.setChan c ch).Inv := by
  rw [State.inv_iff] at h ⊢
  intro c'
  by_cases hc : c' = c
  · subst hc
    rwa [State.setChan_chan]
  · rw [State.setChan_chan_ne _ _ _ hc]
    exact h c'

/-- Every instruction keeps the invariant. -/
theorem State.Inv.exec {s t : State} {i : Instr} (h : s.Inv) (he : exec i s = .next t) : t.Inv := by
  have hch := State.inv_iff.mp h i.channel
  rcases exec_cases he with rfl | ⟨rfl, -⟩ | ⟨nb, rfl, -⟩ | ⟨-, rfl, -⟩ | ⟨v, -, rfl⟩ | ⟨v, -, -, rfl⟩ | ⟨r, -, rfl⟩
  · exact h
  · exact h.setChan (.reset _)
  · exact h.setChan (hch.ingest nb)
  · exact h.setChan hch.finalize
  · exact h.setChan (hch.writeData v)
  · exact h.setChan hch.reject
  · exact ⟨h.md5, h.sha1, h.digest4⟩

/-- Taking an access from the port touches no channel. -/
theorem State.Inv.takeAccess {s : State} (h : s.Inv) (rest : List Access) : (takeAccess rest s).Inv :=
  ⟨h.md5, h.sha1, h.digest4⟩

/-- Settles O37: a step takes the access from the port and runs one instruction, and both keep the invariant. -/
theorem everyStepKeepsTheInvariant : Obligations.EveryStepKeepsTheInvariant := by
  intro s t hinv hstep
  obtain ⟨a, rest, i, -, -, hexec⟩ := step_cases hstep
  exact (hinv.takeAccess rest).exec hexec

end Sys2Proof.Machine
end

section
/-! PROOFS. Who writes what (10_state.md R22 to R30): what an instruction can do to one channel, said once for any
channel (`Effect`), and each element's writers read off it. -/

namespace Sys2Proof.Machine

variable {s t : State} {i : Instr}

/-- What the port returns to the host is no part of a channel. -/
@[simp] theorem State.chan_withResponse (s : State) (r : Option Word) (c : Alg) :
    ({ s with response := r } : State).chan c = s.chan c := by
  cases c <;> rfl

/-- What an instruction can make of channel c, its own or the other: nothing, or one of the five operations. An INGEST
of 0 bytes is no effect (40_hasher_commands.md R106). -/
inductive Effect (i : Instr) (s : State) (c : Alg) : Channel c → Prop
  | kept : Effect i s c (s.chan c)
  | reset (acts : exec i s = exec (.reset c) s) : Effect i s c (s.chan c).reset
  | ingest (nb : Fin 5) (hnb : 1 ≤ nb.val) (acts : exec i s = exec (ingestInstr c nb) s) :
      Effect i s c ((s.chan c).ingest nb.val)
  | finalize (acts : exec i s = exec (.finalize c) s) : Effect i s c (s.chan c).finalize
  | writeData (v : Word) (hi : i = .wrData c v ∨ i = .wrReg c 0x04 v) : Effect i s c ((s.chan c).writeData v)
  | reject (v : Word) (hi : i = .wrReg c 0x00 v) (hv : v ∉ legalCommandWords) : Effect i s c (s.chan c).reject

theorem exec_effect_own (h : exec i s = .next t) : Effect i s i.channel (t.chan i.channel) := by
  rcases exec_cases h with
    rfl | ⟨rfl, acts⟩ | ⟨nb, rfl, acts⟩ | ⟨-, rfl, acts⟩ | ⟨v, hi, rfl⟩ | ⟨v, hi, hv, rfl⟩ | ⟨r, -, rfl⟩
  · exact .kept
  · rw [State.setChan_chan]; exact .reset acts
  · rw [State.setChan_chan]
    obtain h0 | hpos := Nat.eq_zero_or_pos nb.val
    · rw [h0, Channel.ingest_zero]; exact .kept
    · exact .ingest nb hpos acts
  · rw [State.setChan_chan]; exact .finalize acts
  · rw [State.setChan_chan]; exact .writeData v hi
  · rw [State.setChan_chan]; exact .reject v hi hv
  · rw [State.chan_withResponse]; exact .kept

/-- An instruction leaves the other channel (40_hasher_commands.md R118). -/
theorem exec_chan_of_ne {c : Alg} (h : exec i s = .next t) (hc : c ≠ i.channel) : t.chan c = s.chan c := by
  rcases exec_cases h with rfl | ⟨rfl, -⟩ | ⟨nb, rfl, -⟩ | ⟨-, rfl, -⟩ | ⟨v, -, rfl⟩ | ⟨v, -, -, rfl⟩ | ⟨r, -, rfl⟩
  any_goals exact State.setChan_chan_ne _ _ _ hc
  · rfl
  · exact State.chan_withResponse _ _ _

/-- Every channel a completed instruction leaves is one of the effects. -/
theorem exec_effect (c : Alg) (h : exec i s = .next t) : Effect i s c (t.chan c) := by
  by_cases hc : c = i.channel
  · subst hc
    exact exec_effect_own h
  · rw [exec_chan_of_ne h hc]
    exact .kept

/-! ## ERR, DATA, DIGEST and BUF -/

/-- Settles O29: of the effects on a channel only RESET clears ERR and only a rejected word sets it. -/
theorem errIsSticky : Obligations.ErrIsSticky := by
  intro i s t c h
  have he := exec_effect c h
  generalize t.chan c = ch at he ⊢
  cases he with
  | reset acts => exact ⟨fun _ _ => acts, fun _ hset => Bool.noConfusion hset⟩
  | reject v hi hv => exact ⟨fun _ hclear => Bool.noConfusion hclear, fun _ _ => ⟨v, hi, hv⟩⟩
  | _ => simp +contextual

/-- Settles O31: of the effects on a channel only a write of DATA changes DATA. -/
theorem dataWrittenByDataWritesOnly : Obligations.DataWrittenByDataWritesOnly := by
  intro i s t c h
  have he := exec_effect c h
  generalize t.chan c = ch at he ⊢
  cases he with
  | writeData v hi => exact .inr ⟨v, hi, rfl⟩
  | _ => exact .inl (by simp)

/-- Settles O32: of the effects on a channel only FINALIZE and RESET write DIGEST, and both write DV. -/
theorem digestWrittenByFinalizeOrReset : Obligations.DigestWrittenByFinalizeOrReset := by
  intro i s t c h
  have he := exec_effect c h
  generalize t.chan c = ch at he ⊢
  cases he with
  | reset acts => exact .inr (.inr ⟨acts, rfl, rfl⟩)
  | finalize acts => exact .inr (.inl ⟨acts, rfl, rfl⟩)
  | _ => exact .inl (by simp)

/-- Settles O56: of the effects on a channel only RESET and an INGEST of one byte or more touch BUF. -/
theorem bufWrittenByResetOrIngest : Obligations.BufWrittenByResetOrIngest := by
  intro i s t c h
  have he := exec_effect c h
  generalize t.chan c = ch at he ⊢
  cases he with
  | reset acts => exact .inr (.inl ⟨acts, rfl⟩)
  | ingest nb hnb acts => exact .inr (.inr ⟨nb, hnb, acts⟩)
  | _ => exact .inl rfl

/-! ## DV -/

/-- An instruction that changes DV acts as FINALIZE, RESET or an INGEST of one byte or more (R25). -/
theorem exec_dv_cases (c : Alg) (h : exec i s = .next t) :
    (t.chan c).dv = (s.chan c).dv
      ∨ (exec i s = exec (.finalize c) s ∧ (t.chan c).dv = true)
      ∨ (exec i s = exec (.reset c) s ∧ (t.chan c).dv = false)
      ∨ ∃ nb : Fin 5, 1 ≤ nb.val ∧ exec i s = exec (ingestInstr c nb) s ∧ (t.chan c).dv = false := by
  have he := exec_effect c h
  generalize t.chan c = ch at he ⊢
  cases he with
  | reset acts => exact .inr (.inr (.inl ⟨acts, rfl⟩))
  | ingest nb hnb acts => exact .inr (.inr (.inr ⟨nb, hnb, acts, by simp [hnb]⟩))
  | finalize acts => exact .inr (.inl ⟨acts, rfl⟩)
  | _ => exact .inl rfl

/-- NOP, an INGEST of 0 bytes and a rejected word complete and leave DV (R25). -/
theorem exec_keeps_dv (c : Alg) (s : State)
    (hi : i = .nop c ∨ i = .ingest0 c ∨ ∃ v, v ∉ legalCommandWords ∧ i = .wrReg c 0x00 v) :
    ∃ t, exec i s = .next t ∧ (t.chan c).dv = (s.chan c).dv := by
  rcases hi with rfl | rfl | ⟨v, hv, rfl⟩
  · exact ⟨s, rfl, rfl⟩
  · exact ⟨_, exec_ingestInstr c 0 s, by simp⟩
  · exact ⟨_, (exec_wrReg_cmd c v s).trans (executeCommand_reserved hv), by simp⟩

/-- Settles O33: what each command makes of DV, and then that no other instruction changes it. -/
theorem dvWrittenByFinalizeResetOrIngest : Obligations.DvWrittenByFinalizeResetOrIngest := by
  refine ⟨fun c s hf => ?_, fun c s => ?_, fun c nb s hnb => ?_, fun c s i hi => exec_keeps_dv c s hi,
    fun i s t c h => exec_dv_cases c h⟩
  · exact ⟨_, exec_finalize hf, by simp⟩
  · exact ⟨s.setChan c (s.chan c).reset, rfl, by simp⟩
  · exact ⟨_, exec_ingestInstr c nb s, by simp [hnb]⟩

/-! ## H and COUNT -/

/-- Bytes that complete one block and no second one: the block is compressed, COUNT grows by 64, and the bytes behind
the block stay in BUF (40_hasher_commands.md R103, R104). -/
theorem Channel.absorb_block {alg : Alg} (ch : Channel alg) (xs : List Byte) (hb : ch.buf.length ≤ 63)
    (hge : 64 ≤ ch.buf.length + xs.length) (hlt : ch.buf.length + xs.length < 128) :
    ch.absorb xs = { ch.useUnit with
      h := compress alg ch.h ((ch.buf ++ xs).take 64), count := ch.count + 64, buf := (ch.buf ++ xs).drop 64,
      absorbed := ch.absorbed + xs.length } := by
  obtain ⟨ys, zs, rfl, hys⟩ : ∃ ys zs, xs = ys ++ zs ∧ ch.buf.length + ys.length = 64 :=
    ⟨_, _, (List.take_append_drop (64 - ch.buf.length) xs).symm, by rw [List.length_take]; omega⟩
  have hne : ys ≠ [] := by rintro rfl; simp at hys; omega
  have hblk : (ch.buf ++ ys).length = 64 := by rw [List.length_append, hys]
  simp only [List.length_append] at hlt
  rw [absorb_append, absorb_fill ch ys hne hys, absorb_short _ zs (by simp; omega), ← List.append_assoc,
    List.take_left' hblk, List.drop_left' hblk]
  simp [Nat.add_assoc]

/-- An INGEST leaves H and COUNT, or compresses one block that begins with BUF (R30, R22). -/
theorem Channel.ingest_hash_cases {alg : Alg} (ch : Channel alg) (nb : Nat) (hb : ch.buf.length ≤ 63) (hn : nb ≤ 4) :
    ((ch.ingest nb).h = ch.h ∧ (ch.ingest nb).count = ch.count)
      ∨ ∃ blk : List Byte, blk.length = 64 ∧ ch.buf <+: blk ∧ (ch.ingest nb).h = compress alg ch.h blk
        ∧ (ch.ingest nb).count = ch.count + 64 := by
  have hlen : (dataBytes ch.data nb).length = nb := dataBytes_length _ _
  rw [ingest_h, ingest_count]
  by_cases hshort : ch.buf.length + nb ≤ 63
  · left
    rw [absorb_short ch _ (by omega)]
    exact ⟨rfl, rfl⟩
  · right
    refine ⟨(ch.buf ++ dataBytes ch.data nb).take 64, ?_, ?_, ?_⟩
    · rw [List.length_take, List.length_append]
      omega
    · rw [List.take_append, List.take_of_length_le (by omega)]
      exact ⟨_, rfl⟩
    · rw [absorb_block ch _ hb (by omega) (by omega)]
      exact ⟨rfl, rfl⟩

/-- Settles O30: of the effects on a channel only RESET and an INGEST touch H and COUNT. -/
theorem hashWrittenByWholeBlocksOrReset : Obligations.HashWrittenByWholeBlocksOrReset := by
  intro i s t c hb h
  have he := exec_effect c h
  generalize t.chan c = ch at he ⊢
  cases he with
  | reset acts => exact .inr (.inl ⟨acts, rfl, rfl⟩)
  | ingest nb _ acts =>
    rcases Channel.ingest_hash_cases (s.chan c) nb hb (by omega) with hkept | ⟨blk, hlen, hpre, hh, hc⟩
    · exact .inl hkept
    · exact .inr (.inr ⟨nb, blk, acts, hlen, hpre, hh, hc⟩)
  | _ => exact .inl ⟨rfl, rfl⟩

end Sys2Proof.Machine
end

section
/-! PROOFS. The register map (10_state.md R35 to R41): what a read at an aligned offset returns, which writes are
ignored, the fields of STATUS, the halves of COUNT; and accesses written out from the tables. -/

namespace Sys2Proof.Machine

variable {alg : Alg} {r : BitVec 6}

/-- A read at an aligned offset completes, and the port returns the register (20_memory.md R62, R110). -/
theorem exec_rdReg (c : Alg) (s : State) (hr : r.toNat % 4 = 0) :
    exec (.rdReg c r) s = .next { s with response := some ((s.chan c).readRegister r) } := by
  simp [exec, execRdReg, offsetAligned, hr]

/-- An aligned write outside CMD and DATA is ignored (R41). -/
theorem exec_wrReg_ignored (c : Alg) (v : Word) (s : State) (hr : r.toNat % 4 = 0) (h0 : r ≠ 0x00) (h4 : r ≠ 0x04) :
    exec (.wrReg c r v) s = .next s := by
  simp only [exec, execWrReg, offsetAligned, hr, BEq.rfl, if_true, if_neg h0, if_neg h4]

namespace Channel

variable (ch : Channel alg)

theorem readRegister_status : ch.readRegister 0x08 = ch.status := rfl
theorem readRegister_countLo : ch.readRegister 0x0C = ch.count.extractLsb' 0 32 := rfl
theorem readRegister_countHi : ch.readRegister 0x10 = ch.count.extractLsb' 32 32 := rfl

/-- A reserved offset reads 0 (R41). -/
theorem readRegister_reserved (hr : r ∈ [0x14, 0x18, 0x1C, 0x34, 0x38, 0x3C]) : ch.readRegister r = 0 := by
  simp only [List.mem_cons, List.not_mem_nil, or_false] at hr
  rcases hr with rfl | rfl | rfl | rfl | rfl | rfl <;> rfl

end Channel

/-! ## STATUS (R38) -/

theorem getLsbD_flagWord (b : Bool) (k : Nat) : (flagWord b).getLsbD k = (decide (k = 0) && b) := by
  cases b <;> simp [flagWord]

/-- A flag moved up to bit n. -/
theorem getLsbD_flagWord_shiftLeft (b : Bool) (n k : Nat) (hk : k < 32) :
    (flagWord b <<< n).getLsbD k = (decide (k = n) && b) := by
  have hbit : (!decide (k < n) && decide (k - n = 0)) = decide (k = n) := by
    rw [Bool.eq_iff_iff]
    simp
    omega
  rw [BitVec.getLsbD_shiftLeft, getLsbD_flagWord, ← hbit]
  simp [hk, Bool.and_assoc]

theorem algWord_eq_flagWord (c : Alg) : algWord c = flagWord (decide (c = .sha1)) := by cases c <;> rfl

/-- Each bit of STATUS: DV in bit 0, ERR in bit 1, the length of BUF from bit 8 on, ALG in bit 16 (R38). -/
theorem Channel.getLsbD_status (ch : Channel alg) (k : Nat) (hk : k < 32) :
    ch.status.getLsbD k
      = ((decide (k = 0) && ch.dv) || (decide (k = 1) && ch.err) || (!decide (k < 8) && ch.buf.length.testBit (k - 8))
        || (decide (k = 16) && decide (alg = .sha1))) := by
  have hlen : (BitVec.ofNat 32 ch.buf.length <<< 8).getLsbD k = (!decide (k < 8) && ch.buf.length.testBit (k - 8)) := by
    rw [BitVec.getLsbD_shiftLeft, BitVec.getLsbD_ofNat]
    simp [hk, show k - 8 < 32 by omega]
  rw [status, algWord_eq_flagWord, BitVec.getLsbD_or, BitVec.getLsbD_or, BitVec.getLsbD_or, getLsbD_flagWord,
    getLsbD_flagWord_shiftLeft _ _ _ hk, hlen, getLsbD_flagWord_shiftLeft _ _ _ hk]

/-- A length of at most 63 has six bits (R29 (a)). -/
theorem Channel.testBit_bufLength {ch : Channel alg} (hb : ch.buf.length ≤ 63) {k : Nat} (hk : 6 ≤ k) :
    ch.buf.length.testBit k = false :=
  Nat.testBit_lt_two_pow (lt_of_lt_of_le (Nat.lt_succ_of_le hb) (Nat.pow_le_pow_right (n := 2) (by decide) hk))

/-- The reserved bits of STATUS read 0 (R38). -/
theorem Channel.status_reserved {ch : Channel alg} (hb : ch.buf.length ≤ 63) {k : Nat} (hk : k < 32)
    (hres : (2 ≤ k ∧ k < 8) ∨ (14 ≤ k ∧ k < 16) ∨ 17 ≤ k) : ch.status.getLsbD k = false := by
  have hlen : (!decide (k < 8) && ch.buf.length.testBit (k - 8)) = false := by
    obtain hlow | hhigh : k < 8 ∨ 6 ≤ k - 8 := by omega
    · simp [hlow]
    · rw [testBit_bufLength hb hhigh, Bool.and_false]
  rw [getLsbD_status ch k hk, hlen]
  simp [show k ≠ 0 by omega, show k ≠ 1 by omega, show k ≠ 16 by omega]

/-- BUFLEN reads the length of BUF (R38). -/
theorem Channel.status_bufLen {ch : Channel alg} (hb : ch.buf.length ≤ 63) :
    (ch.status.extractLsb' 8 6).toNat = ch.buf.length := by
  have hfield : ch.status.extractLsb' 8 6 = BitVec.ofNat 6 ch.buf.length := by
    apply BitVec.eq_of_getLsbD_eq
    intro j hj
    rw [BitVec.getLsbD_extractLsb', getLsbD_status ch _ (by omega), BitVec.getLsbD_ofNat]
    simp [hj, show 8 + j ≠ 1 by omega, show 8 + j ≠ 16 by omega]
  rw [hfield, BitVec.toNat_ofNat]
  omega

/-- A field all of whose bits are 0 is 0. -/
theorem extractLsb'_eq_zero {v : Word} {start len : Nat}
    (h : ∀ k, start ≤ k → k < start + len → v.getLsbD k = false) : v.extractLsb' start len = 0 := by
  apply BitVec.eq_of_getLsbD_eq
  intro j hj
  rw [BitVec.getLsbD_extractLsb', h (start + j) (by omega) (by omega)]
  simp

/-- Settles O22: the read returns STATUS, whose fields are read off bit by bit, and the write is one R41 ignores. -/
theorem statusFields : Obligations.StatusFields := by
  intro c s hb
  refine ⟨⟨(s.chan c).status, _, exec_rdReg c s (by decide), rfl, ?_, ?_, ?_, Channel.status_bufLen hb, ?_, ?_, ?_⟩,
    fun w => ⟨s, exec_wrReg_ignored c w s (by decide) (by decide) (by decide), rfl⟩⟩
  · rw [Channel.getLsbD_status _ _ (by decide)]; simp
  · rw [Channel.getLsbD_status _ _ (by decide)]; simp
  · exact extractLsb'_eq_zero fun k _ _ => Channel.status_reserved hb (by omega) (by omega)
  · exact extractLsb'_eq_zero fun k _ _ => Channel.status_reserved hb (by omega) (by omega)
  · rw [Channel.getLsbD_status _ _ (by decide), Channel.testBit_bufLength hb (by decide)]; simp
  · exact extractLsb'_eq_zero fun k _ _ => Channel.status_reserved hb (by omega) (by omega)

/-! ## COUNT and the other registers (R39, R41) -/

/-- The low bits of COUNT_LO, where COUNT is a multiple of 64 (R29 (b)). -/
theorem countLo_low_bits {n : DWord} (h : n.toNat % 64 = 0) : (n.extractLsb' 0 32).extractLsb' 0 6 = 0 := by
  apply BitVec.eq_of_toNat_eq
  rw [BitVec.extractLsb'_toNat, BitVec.extractLsb'_toNat, Nat.shiftRight_zero, Nat.shiftRight_zero]
  change _ = 0
  omega

/-- Settles O23: the two reads return the halves of COUNT. -/
theorem countHalves : Obligations.CountHalves := by
  intro c s
  refine ⟨(s.chan c).count.extractLsb' 0 32, (s.chan c).count.extractLsb' 32 32, _, _,
    exec_rdReg c s (by decide), ?_, exec_rdReg c s (by decide), ?_, ?_, countLo_low_bits⟩
  · rw [Channel.readRegister_countLo]; rfl
  · rw [Channel.readRegister_countHi]; rfl
  · rw [BitVec.extractLsb'_append_extractLsb'_eq_extractLsb' (show 32 = 0 + 32 from rfl)]
    exact BitVec.extractLsb'_eq_self

/-- A reserved offset is aligned (R35). -/
theorem reserved_aligned (hr : r ∈ [0x14, 0x18, 0x1C, 0x34, 0x38, 0x3C]) : r.toNat % 4 = 0 := by
  revert r
  decide

/-- Settles O24: such a write is ignored, and such a read returns 0. -/
theorem otherWritesAreIgnored : Obligations.OtherWritesAreIgnored := by
  intro c r v s
  refine ⟨fun hr h0 h4 => ⟨s, exec_wrReg_ignored c v s hr h0 h4, rfl⟩,
    fun hr => ⟨_, exec_rdReg c s (reserved_aligned hr), ?_⟩⟩
  rw [Channel.readRegister_reserved _ hr]
  rfl

/-! ## Accesses written out from the tables (R35, 30_encoding.md R84) -/

/-- Settles O3: the decoder computes each of the eight. -/
theorem writtenOutAccessesDecode : Obligations.WrittenOutAccessesDecode := by
  unfold Obligations.WrittenOutAccessesDecode
  decide

end Sys2Proof.Machine
end

section
/-! PROOFS. The register port (20_memory.md R60 to R62, R73): which bus addresses reach it, what a step makes of the
oldest waiting access, and what a read leaves alone. -/

namespace Sys2Proof.Machine

variable {s : State} {a : Access} {rest : List Access}

/-! ## The window on the bus (R60) -/

/-- An access inside the window joins the port's order at its offset. -/
theorem State.present_inside (s : State) (off : BitVec 7) (access : BitVec 7 → Access) :
    s.present (Config.base + off.toNat) access = { s with pending := s.pending ++ [access off] } := by
  have hin : Config.base ≤ Config.base + off.toNat ∧ Config.base + off.toNat < Config.base + Config.windowBytes :=
    ⟨Nat.le_add_right _ _, Nat.add_lt_add_left off.isLt _⟩
  rw [present, if_pos hin, Nat.add_sub_cancel_left, BitVec.ofNat_toNat, BitVec.setWidth_eq]

/-- An access outside the window never reaches the core. -/
theorem State.present_outside {addr : Nat} (access : BitVec 7 → Access)
    (h : addr < Config.base ∨ Config.base + 0x7F < addr) : s.present addr access = s := by
  have hout : ¬(Config.base ≤ addr ∧ addr < Config.base + Config.windowBytes) := by
    rw [Config.windowBytes]
    omega
  exact if_neg hout

/-- Settles O10: the bus address of a register is BASE and the register's window offset. -/
theorem windowAddressesReachTheirRegister : Obligations.WindowAddressesReachTheirRegister := by
  refine ⟨fun s c r access => ⟨?_, offsetChannel_windowOffset c r, offsetRegister_windowOffset c r⟩,
    fun s addr access h => ?_, Nat.mul_mod_right Config.windowBytes Config.baseBlock⟩
  · rw [Nat.add_assoc, ← windowOffset_toNat, State.present_inside]
    rfl
  · rw [State.present_outside access h]

/-! ## The step (R61, R73) -/

/-- A step on an access that decodes runs its instruction. -/
theorem step_of_decode_ok {i : Instr} (hp : s.pending = a :: rest) (hd : decode a = .ok i) :
    step s = exec i (takeAccess rest s) := by
  simp only [step, hp, hd]

/-- A step on an access that does not decode is refused. -/
theorem step_of_decode_error {e : DecodeError} (hp : s.pending = a :: rest) (hd : decode a = .error e) :
    step s = .refused (refusalOf e) := by
  simp only [step, hp, hd]

/-- Settles O6: taking the access changes the port and the last response only. -/
theorem stepRunsTheDecodedInstruction : Obligations.StepRunsTheDecodedInstruction :=
  fun _ _ _ _ hp hd => step_of_decode_ok hp hd

/-- A read or a write that fails the check has no step. -/
theorem step_of_checkAccess_eq_some {off : BitVec 7} {bytes : Nat} {v : Word} {e : DecodeError}
    (hp : s.pending = a :: rest) (ha : a = .read off bytes ∨ a = .write off bytes v) (hc : checkAccess off bytes = some e) :
    step s = .refused (refusalOf e) := by
  refine step_of_decode_error hp ?_
  rcases ha with rfl | rfl <;> simp only [decode, hc]

theorem checkAccess_of_width (off : BitVec 7) {bytes : Nat} (h : bytes ≠ 4) :
    checkAccess off bytes = some .accessSize := if_pos h

theorem checkAccess_of_misaligned {off : BitVec 7} (h : off.toNat % 4 ≠ 0) : checkAccess off 4 = some .misaligned := by
  simp [checkAccess, h]

/-- Settles O7: an access of another width fails the check at its width, whatever its offset. -/
theorem wrongWidthOrMisalignedAccessIsRefused : Obligations.WrongWidthOrMisalignedAccessIsRefused := by
  intro s off bytes v a rest hp ha
  refine ⟨fun hw _ => ?_, fun hw hm => ?_, fun hw _ => .inl ?_⟩
  · exact step_of_checkAccess_eq_some hp ha (checkAccess_of_width off hw)
  · subst hw
    exact step_of_checkAccess_eq_some hp ha (checkAccess_of_misaligned hm)
  · exact step_of_checkAccess_eq_some hp ha (checkAccess_of_width off hw)

/-- Settles O25: the register instructions look at the alignment of their offset first. -/
theorem misalignedRegisterOffsetIsRefused : Obligations.MisalignedRegisterOffsetIsRefused := by
  intro c r v s hr
  have hoff : offsetAligned r = false := by simp [offsetAligned, hr]
  constructor
  · simp [exec, execWrReg, hoff]
  · simp [exec, execRdReg, hoff]

/-! ## Reads (R62) -/

/-- A second read finds the channel of the first, and returns the same value. -/
theorem exec_rdReg_again {r : BitVec 6} (c : Alg) (s : State) (hr : r.toNat % 4 = 0) :
    exec (.rdReg c r) { s with response := some ((s.chan c).readRegister r) }
      = .next { s with response := some ((s.chan c).readRegister r) } := by
  rw [exec_rdReg c _ hr, State.chan_withResponse s (some _) c]

/-- Settles O21: a read changes the response only, so a second read leaves the state of the first. -/
theorem readsHaveNoSideEffects : Obligations.ReadsHaveNoSideEffects :=
  fun c _ s hr => ⟨_, _, exec_rdReg c s hr, rfl, exec_rdReg_again c s hr, rfl⟩

end Sys2Proof.Machine
end

section
/-! PROOFS. Words as bytes at the port: the lanes of DATA that an INGEST takes (20_memory.md R65), and the DIGEST
registers of a hash state (R69, R70). -/

namespace Sys2Proof.Machine

variable {alg : Alg}

/-! ## The lanes of DATA (R65) -/

/-- Words that agree below bit `8 * n` have the same first n lanes. -/
theorem dataBytes_congr {v v' : Word} {n : Nat} (h : v.toNat % 2 ^ (8 * n) = v'.toNat % 2 ^ (8 * n)) :
    dataBytes v n = dataBytes v' n := by
  refine List.map_congr_left fun j hj => BitVec.eq_of_getLsbD_eq fun r hr => ?_
  have hjn : j < n := List.mem_range.mp hj
  have hbit := congrArg (Nat.testBit · (8 * j + r)) h
  simp only [Nat.testBit_mod_two_pow, show 8 * j + r < 8 * n by omega, decide_true, Bool.true_and] at hbit
  rwa [getLsbD_lane _ _ _ hr, getLsbD_lane _ _ _ hr]

/-- The lanes of DATA, lane 0 first. -/
theorem dataBytes_eq_take (v : Word) {nb : Nat} (h : nb ≤ 4) :
    dataBytes v nb = [v.extractLsb' 0 8, v.extractLsb' 8 8, v.extractLsb' 16 8, v.extractLsb' 24 8].take nb := by
  interval_cases nb <;> rfl

namespace Channel

variable (ch : Channel alg) (v : Word)

/-- Absorbing does not look at DATA. -/
theorem absorbByte_writeData (x : Byte) : (ch.writeData v).absorbByte x = (ch.absorbByte x).writeData v := by
  rcases absorbByte_cases ch x with ⟨hl, e⟩ | ⟨hl, e⟩ <;>
    rcases absorbByte_cases (ch.writeData v) x with ⟨hl', e'⟩ | ⟨hl', e'⟩
  · rw [e, e']; rfl
  · exact absurd hl' hl
  · exact absurd hl hl'
  · rw [e, e']; rfl

theorem absorb_writeData (xs : List Byte) : (ch.writeData v).absorb xs = (ch.absorb xs).writeData v := by
  induction xs generalizing ch with
  | nil => rfl
  | cons x xs ih => rw [absorb_cons, absorb_cons, absorbByte_writeData, ih]

/-- An INGEST does not look at the lanes of DATA it does not take. -/
theorem ingest_writeData {n : Nat} (h : dataBytes v n = dataBytes ch.data n) :
    (ch.writeData v).ingest n = (ch.ingest n).writeData v := by
  rw [ingest, writeData_data, h, absorb_writeData]
  rfl

end Channel

/-- Settles O14: the second machine is the first after a write of DATA, up to the compressors' registers, and INGEST
commutes with that write. -/
theorem ingestTakesLaneZeroFirst : Obligations.IngestTakesLaneZeroFirst := by
  refine ⟨fun v nb h => dataBytes_eq_take v h, fun c nb s s' v v' hlow hs hv => ?_⟩
  refine ⟨_, _, exec_ingestInstr c nb s, exec_ingestInstr c nb s', ?_⟩
  have hs' : s'.visible = (s.setChan c ((s.chan c).writeData v')).visible := hs
  have hch : (s'.chan c).visible = ((s.chan c).writeData v').visible := by
    rw [← State.visible_chan, hs', State.visible_chan, State.setChan_chan]
  have hbytes : dataBytes v' nb.val = dataBytes (s.chan c).data nb.val := by rw [hv, dataBytes_congr hlow]
  have hingest : ((s'.chan c).ingest nb.val).visible = (((s.chan c).ingest nb.val).writeData v').visible := by
    rw [← Channel.ingest_visible, hch, Channel.ingest_visible, Channel.ingest_writeData _ _ hbytes]
  rw [State.setChan_visible, hs', hingest, ← State.setChan_visible, State.setChan_setChan, State.setChan_chan,
    State.setChan_setChan]
  rfl

/-! ## The DIGEST registers (R69, R70) -/

/-- Byte 4k + j of words laid out one after the other, four bytes each, is byte j of word k. -/
theorem byteAt_flatMap {f : Word → List Byte} (hf : ∀ w, (f w).length = 4) (ws : List Word) {k j : Nat}
    (hk : k < ws.length) (hj : j < 4) : byteAt (ws.flatMap f) (4 * k + j) = byteAt (f ws[k]) j := by
  induction ws generalizing k with
  | nil => simp at hk
  | cons w ws ih =>
    rw [List.flatMap_cons]
    cases k with
    | zero => rw [Nat.mul_zero, Nat.zero_add, byteAt_append_left _ _ _ (by rw [hf]; exact hj)]; rfl
    | succ k =>
      rw [show 4 * (k + 1) + j = (f w).length + (4 * k + j) by rw [hf]; omega, byteAt_append_right]
      exact ih (by simpa using hk)

theorem length_flatMap_words {f : Word → List Byte} (hf : ∀ w, (f w).length = 4) (ws : List Word) :
    (ws.flatMap f).length = 4 * ws.length := by
  simp [List.length_flatMap, hf, Nat.mul_comm]

/-- DIGEST k is the little-endian word at byte 4k of the digest with its zeros (R70). -/
theorem packDigest_getElem (d : List Byte) {k : Nat} (hk : k < 5) :
    (packDigest d)[k] = le32 (d ++ zeros (20 - d.length)) (4 * k) := by
  interval_cases k <;> rfl

/-- Bytes behind the words of a vector, as the zeros behind a digest, do not move the bytes of its words. -/
theorem byteAt_flatMap_toList_append {n : Nat} {f : Word → List Byte} (hf : ∀ w, (f w).length = 4)
    (h : Vector Word n) (z : List Byte) {k j : Nat} (hk : k < n) (hj : j < 4) :
    byteAt (h.toList.flatMap f ++ z) (4 * k + j) = byteAt (f h[k]) j := by
  have hlen : (h.toList.flatMap f).length = 4 * n := by rw [length_flatMap_words hf, Vector.length_toList]
  rw [byteAt_append_left _ _ _ (by omega), byteAt_flatMap hf _ (by simpa using hk) hj, Vector.getElem_toList]

/-- DIGEST k of the MD5 channel is word k of the hash state. -/
theorem packDigest_md5 (h : Vector Word 4) {k : Nat} (hk : k < 4) : (packDigest (serialise .md5 h))[k] = h[k] := by
  rw [packDigest_getElem]
  refine le32_of_leBytes32 _ _ _ fun j hj => ?_
  rw [serialise, byteAt_flatMap_toList_append leBytes32_length h _ hk hj]
  interval_cases j <;> rfl

/-- The bytes of DIGEST k of the SHA-1 channel are word k of the hash state, most significant byte first. -/
theorem leBytes32_packDigest_sha1 (h : Vector Word 5) {k : Nat} (hk : k < 5) :
    leBytes32 (packDigest (serialise .sha1 h))[k] = beBytes32 h[k] := by
  have hbyte (j : Nat) (hj : j < 4) :
      byteAt (serialise .sha1 h ++ zeros (20 - (serialise .sha1 h).length)) (4 * k + j) = byteAt (beBytes32 h[k]) j :=
    byteAt_flatMap_toList_append beBytes32_length h _ hk hj
  rw [packDigest_getElem, leBytes32_le32, show byteAt _ (4 * k) = _ from hbyte 0 (by decide),
    hbyte 1 (by decide), hbyte 2 (by decide), hbyte 3 (by decide)]
  rfl

/-- Settles O49: register by register, DIGEST4 of MD5 lying past its 16 bytes. -/
theorem digestRegisterPacking : Obligations.DigestRegisterPacking := by
  refine ⟨fun h => Vector.ext fun k hk => ?_, fun h k => leBytes32_packDigest_sha1 h k.isLt⟩
  interval_cases k
  · exact packDigest_md5 h _
  · exact packDigest_md5 h _
  · exact packDigest_md5 h _
  · exact packDigest_md5 h _
  · exact packDigest_last (serialise_md5_length h)

end Sys2Proof.Machine
end

section
/-! PROOFS. Encoding and decoding (30_encoding.md R80 to R90): the decoder undoes the encoder on well-formed
instructions, the encoder undoes the decoder on every access, and the assembler's mnemonics are encodings. -/

namespace Sys2Proof.Machine

variable {c : Alg} {r : BitVec 6} {v : Word} {i : Instr}

/-! ## The two directions (R84, R88, R89) -/

/-- A well-formed register write is aligned, and has no row of its own in the opcode table. -/
theorem wellFormed_wrReg_iff :
    (Instr.wrReg c r v).WellFormed ↔ offsetAligned r = true ∧ r ≠ 0x04 ∧ (r = 0x00 → v ∉ legalCommandWords) := by
  simp [Instr.WellFormed, Instr.wellFormed, and_assoc, imp_iff_not_or]

/-- A write at an aligned register offset decodes (20_memory.md R61). -/
theorem decode_write_windowOffset (c : Alg) (v : Word) (h : offsetAligned r = true) :
    decode (.write (windowOffset c r) 4 v) = .ok (decodeWrite c r v) := by
  simp [decode, checkAccess_windowOffset, h]

/-- A read at an aligned register offset decodes (20_memory.md R61). -/
theorem decode_read_windowOffset (c : Alg) (h : offsetAligned r = true) :
    decode (.read (windowOffset c r) 4) = .ok (.rdReg c r) := by
  simp [decode, checkAccess_windowOffset, h]

/-- A command access decodes to the instruction its word selects. -/
theorem decode_encodeCommand {op : BitVec 4} {nb : BitVec 3}
    (h : (decodeCommand (commandWord op nb)).instr c = some i) : decode (encodeCommand c op nb) = .ok i := by
  rw [encodeCommand, decode_write_windowOffset c _ rfl, decodeWrite, if_pos rfl, h, Option.getD_some]

/-- The reserved words, and no others, select no instruction (R86). -/
theorem instr_eq_none_iff : (decodeCommand v).instr c = none ↔ v ∉ legalCommandWords := by
  rw [← decodeCommand_eq_reject_iff]
  cases decodeCommand v with
  | ingest nb => fin_cases nb <;> simp [Command.instr]
  | _ => simp [Command.instr]

/-- A word that selects an instruction is a legal one (R84). -/
theorem mem_legalCommandWords_of_instr (h : (decodeCommand v).instr c = some i) : v ∈ legalCommandWords := by
  by_contra hv
  rw [instr_eq_none_iff.mpr hv] at h
  cases h

/-- A write that is well formed as a register write decodes to it: no other row of the opcode table covers it. -/
theorem decodeWrite_of_wellFormed (h : (Instr.wrReg c r v).WellFormed) : decodeWrite c r v = .wrReg c r v := by
  obtain ⟨-, h4, h0⟩ := wellFormed_wrReg_iff.mp h
  unfold decodeWrite
  by_cases hr : r = 0x00
  · rw [if_pos hr, instr_eq_none_iff.mpr (h0 hr), Option.getD_none]
  · rw [if_neg hr, if_neg h4]

/-- The decoder undoes the encoder on well-formed instructions. -/
theorem decode_encode (h : i.WellFormed) : decode (encode i) = .ok i := by
  cases i with
  | wrData c v => exact decode_write_windowOffset c v rfl
  | wrReg c r v =>
    rw [encode, decode_write_windowOffset c v (wellFormed_wrReg_iff.mp h).1, decodeWrite_of_wellFormed h]
  | rdReg c r => exact decode_read_windowOffset c h
  | _ => exact decode_encodeCommand rfl

/-- Settles O1: command by command, and the register accesses by their aligned offset. -/
theorem decodeOfEncodeIsTheInstruction : Obligations.DecodeOfEncodeIsTheInstruction :=
  fun _ => decode_encode

/-- The instruction a command word selects is well formed, and its encoding writes that word to CMD: the encoder's
eight words are the decoder's. -/
theorem encode_of_instr (h : (decodeCommand v).instr c = some i) :
    i.WellFormed ∧ encode i = .write (windowOffset c 0x00) 4 v := by
  have hv := mem_legalCommandWords_of_instr h
  simp only [legalCommandWords, List.mem_cons, List.not_mem_nil, or_false] at hv
  rcases hv with rfl | rfl | rfl | rfl | rfl | rfl | rfl | rfl <;> cases h <;> exact ⟨rfl, rfl⟩

/-- What an aligned write decodes to is well formed, and its encoding is that write. -/
theorem encode_decodeWrite (c : Alg) (v : Word) (ha : offsetAligned r = true) :
    (decodeWrite c r v).WellFormed ∧ encode (decodeWrite c r v) = .write (windowOffset c r) 4 v := by
  by_cases h0 : r = 0x00
  · subst h0
    rw [decodeWrite, if_pos rfl]
    cases hi : (decodeCommand v).instr c with
    | some i => exact encode_of_instr hi
    | none => exact ⟨wellFormed_wrReg_iff.mpr ⟨ha, by decide, fun _ => instr_eq_none_iff.mp hi⟩, rfl⟩
  · rw [decodeWrite, if_neg h0]
    split
    next h4 => exact ⟨rfl, by rw [h4, encode]⟩
    next h4 => exact ⟨wellFormed_wrReg_iff.mpr ⟨ha, h4, fun h => absurd h h0⟩, rfl⟩

/-- Settles O2: an access that decodes is aligned and 4 bytes wide, and its offset is that of its channel and
register. -/
theorem encodeOfDecodeIsTheAccess : Obligations.EncodeOfDecodeIsTheAccess := by
  intro a i h
  obtain ⟨off, h4, hcases⟩ := decode_eq_ok h
  have ha : offsetAligned (offsetRegister off) = true := by rw [offsetAligned_offsetRegister, decide_eq_true h4]
  obtain ⟨rfl, rfl⟩ | ⟨v, rfl, rfl⟩ := hcases
  · exact ⟨ha, by rw [encode, windowOffset_parts]⟩
  · simpa using encode_decodeWrite (offsetChannel off) v ha

/-! ## Command words and mnemonics (R84, R86, R89, R90) -/

/-- Settles O4: the eight words decode by their fields. -/
theorem exactlyEightCommandWordsDecode : Obligations.ExactlyEightCommandWordsDecode :=
  ⟨rfl, rfl, rfl, rfl, rfl, rfl, rfl, rfl, decodeCommand_of_not_legal⟩

/-- The CMD write of `ingest nb` is the encoding of its instruction (R89). -/
theorem asmWr_ingest (c : Alg) (nb : Fin 5) :
    asmWr c .cmd (0x00000002 ||| (BitVec.ofNat 32 nb.val <<< 4)) = encode (ingestInstr c nb) := by
  fin_cases nb <;> rfl

/-- Settles O5: each mnemonic writes the command word of its instruction's fields. -/
theorem commandMnemonicsEncodeTheirInstruction : Obligations.CommandMnemonicsEncodeTheirInstruction := by
  refine fun c => ⟨rfl, rfl, rfl, fun nb => ?_, fun n hn => if_neg (by omega)⟩
  rw [asmIngest, if_pos (by omega), asmWr_ingest]

/-- A put is two encodings: the write of its word to DATA, and the INGEST (R90). -/
theorem asmPut_eq_encode (c : Alg) (nb : Fin 5) (imm : Word) :
    asmPut c nb imm = [encode (.wrData c (putWord nb imm)), encode (ingestInstr c nb)] := by
  rw [asmPut, asmWr_ingest]
  rfl

/-- Settles O57: the word is `putWord`, lane by lane. -/
theorem putWritesTheUnusedLanesAsZero : Obligations.PutWritesTheUnusedLanesAsZero :=
  fun c nb imm => ⟨putWord nb imm, asmPut_eq_encode c nb imm, lane_putWord nb imm, dataBytes_putWord nb imm⟩

/-- Settles O27: the channel is rejected, and nothing outside it is touched. -/
theorem reservedWordOnlySetsErr : Obligations.ReservedWordOnlySetsErr := by
  intro c v s hv
  refine ⟨_, (exec_wrReg_cmd c v s).trans (executeCommand_reserved hv), ?_⟩
  simp [State.sameOutside_setChan]

end Sys2Proof.Machine
end

section
/-! PROOFS. The host runs readdigest (30_encoding.md R93): what a list of register reads returns, and the digest bytes
in it. -/

namespace Sys2Proof.Machine

variable {s : State} {c : Alg} {rest : List Access}

/-- Reads of named registers one after the other return the registers, and change the port only (20_memory.md R62). -/
theorem hostReads_asmRd (regs : List RegName) (hp : s.pending = regs.map (asmRd c) ++ rest) :
    ∃ t, hostReads regs.length s = some (regs.map fun reg => (s.chan c).readRegister (regOffset reg), t)
      ∧ t = { s with pending := rest, response := t.response } := by
  induction regs generalizing s with
  | nil =>
    refine ⟨s, rfl, ?_⟩
    rw [← show s.pending = rest from hp]
  | cons reg regs ih =>
    have hstep := step_asmRd (rest := regs.map (asmRd c) ++ rest) hp
    obtain ⟨t, hreads, ht⟩ := ih (s := { s with
      pending := regs.map (asmRd c) ++ rest, response := some ((s.chan c).readRegister (regOffset reg)) }) rfl
    refine ⟨t, ?_, ht⟩
    rw [List.length_cons, hostReads_succ hstep, hreads]
    cases c <;> rfl

/-- The registers readdigest reads: as many as the hash state has words (R93). -/
def digestRegs (c : Alg) : List RegName :=
  match c with
  | .md5 => [.digest 0, .digest 1, .digest 2, .digest 3]
  | .sha1 => [.digest 0, .digest 1, .digest 2, .digest 3, .digest 4]

theorem asmReadDigest_eq (c : Alg) : asmReadDigest c = (digestRegs c).map (asmRd c) := by cases c <;> rfl

/-- The words of a vector, one after the other, as bytes. -/
theorem flatMap_toList {n : Nat} (f : Word → List Byte) (h : Vector Word n) :
    h.toList.flatMap f = (List.ofFn fun k : Fin n => f h[k]).flatten := by
  have hwords : h.toList = List.ofFn fun k : Fin n => h[k] := List.ext_getElem (by simp) (by simp)
  rw [hwords, List.flatMap_def, List.map_ofFn]
  rfl

/-- The bytes of the DIGEST registers that readdigest reads are the serialised hash state they pack (R70). -/
theorem recoverDigest_digestRegs {ch : Channel c} {h : Vector Word c.hashWords}
    (hd : ch.digest = packDigest (serialise c h)) :
    recoverDigest ((digestRegs c).map fun reg => ch.readRegister (regOffset reg)) = serialise c h := by
  cases c with
  | md5 =>
    change (List.ofFn fun k : Fin 4 => leBytes32 ch.digest[k.val]).flatten = h.toList.flatMap leBytes32
    rw [flatMap_toList, hd]
    exact congrArg (fun f => (List.ofFn f).flatten) (funext fun k => congrArg leBytes32 (packDigest_md5 h k.isLt))
  | sha1 =>
    change (List.ofFn fun k : Fin 5 => leBytes32 ch.digest[k.val]).flatten = h.toList.flatMap beBytes32
    rw [flatMap_toList, hd]
    exact congrArg (fun f => (List.ofFn f).flatten) (funext fun k => leBytes32_packDigest_sha1 h k.isLt)

/-- Settles O50: the reads return the DIGEST registers, whose bytes are the serialised hash state. -/
theorem hostRecoversTheDigest : Obligations.HostRecoversTheDigest := by
  intro c h rest s hp hd
  rw [asmReadDigest_eq] at hp ⊢
  obtain ⟨t, hreads, ht⟩ := hostReads_asmRd (digestRegs c) hp
  rw [List.length_map]
  exact ⟨_, t, hreads, recoverDigest_digestRegs hd, congrArg State.visible ht⟩

end Sys2Proof.Machine
end

section
/-! PROOFS. The host runs a one-shot (30_encoding.md R90 to R92): what a list of writes at the port makes of the
machine, and the message in the channel after each statement of the assembler. -/

namespace Sys2Proof.Machine

variable {s t u : State} {c : Alg} {rest as bs : List Access} {m p : List Byte} {n : Nat}

/-! ## Running accesses from the port -/

theorem core_step (s : State) : core.step s = step s := rfl

/-- A run whose first step completes is the run of the rest. -/
theorem run_succ (h : step s = .next t) : core.run (n + 1) s = core.run n t := by
  simp only [Host.Core.run, core_step, h]

/-- A run whose first k steps complete is the run of the rest. -/
theorem run_add {k : Nat} (h : core.run k s = .next t) : core.run (k + n) s = core.run n t := by
  induction k generalizing s with
  | zero => cases h; rw [Nat.zero_add]
  | succ k ih =>
    cases hs : step s with
    | next s' =>
      rw [run_succ hs] at h
      rw [Nat.add_right_comm, run_succ hs, ih h]
    | _ => simp [Host.Core.run, core_step, hs] at h

/-- The accesses `as`, at the head of the port with anything behind them, all complete, and turn s into t. Neither what
waits at the port nor the last response is read from s or t: `takeAccess` sets both. -/
def Runs (as : List Access) (s t : State) : Prop :=
  ∀ rest, core.run as.length (takeAccess (as ++ rest) s) = .next (takeAccess rest t)

theorem Runs.nil (s : State) : Runs [] s s := fun _ => rfl

theorem Runs.append (h : Runs as s t) (h' : Runs bs t u) : Runs (as ++ bs) s u := by
  intro rest
  rw [List.length_append, List.append_assoc, run_add (h _)]
  exact h' rest

/-- Accesses that run, run from any state that has them at its port: the first step clears the response. -/
theorem Runs.run_eq {a : Access} (h : Runs (a :: as) s t) (hp : s.pending = a :: as ++ rest) :
    core.run (a :: as).length s = .next (takeAccess rest t) := by
  have hstep : step (takeAccess (a :: as ++ rest) s) = step s := by
    simp only [step, hp, takeAccess_pending, List.cons_append]
    rfl
  rw [← h rest]
  simp only [List.length_cons, Host.Core.run, core_step, hstep]

@[simp] theorem setChan_takeAccess (ch : Channel c) :
    (takeAccess rest s).setChan c ch = takeAccess rest (s.setChan c ch) := by cases c <;> rfl

/-- The access of an instruction that does not look at the port runs as the instruction. -/
theorem Runs.of_exec {i : Instr} (hwf : i.WellFormed)
    (h : ∀ rest, exec i (takeAccess rest s) = .next (takeAccess rest t)) : Runs [encode i] s t :=
  fun rest => run_succ ((step_of_decode_ok rfl (decode_encode hwf)).trans (h rest))

/-! ## The assembler's statements -/

theorem runs_asmReset (c : Alg) (s : State) : Runs [asmReset c] s (s.setChan c (s.chan c).reset) :=
  Runs.of_exec (i := .reset c) rfl fun rest => by simp [exec, execReset]

theorem runs_asmFinalize (h : s.mayFinalize c) : Runs [asmFinalize c] s (s.setChan c (s.chan c).finalize) :=
  Runs.of_exec (i := .finalize c) rfl fun rest => by
    rw [exec_finalize (by simpa [State.mayFinalize] using h), setChan_takeAccess, takeAccess_chan]

theorem ingestInstr_wellFormed (c : Alg) (nb : Fin 5) : (ingestInstr c nb).WellFormed := by fin_cases nb <;> rfl

/-- A put writes DATA and ingests its lanes (R90). -/
theorem runs_asmPut (c : Alg) (nb : Fin 5) (imm : Word) (s : State) :
    Runs (asmPut c nb imm) s (s.setChan c (((s.chan c).writeData (putWord nb imm)).ingest nb.val)) := by
  rw [asmPut_eq_encode]
  have hdata : Runs [encode (.wrData c (putWord nb imm))] s (s.setChan c ((s.chan c).writeData (putWord nb imm))) :=
    Runs.of_exec rfl fun rest => by simp [exec, execWrData]
  refine hdata.append (Runs.of_exec (ingestInstr_wellFormed c nb) fun rest => ?_)
  rw [exec_ingestInstr]
  simp

/-- A lane of `le32(b, o)` is the byte it was made of (00_scope.md R10). -/
theorem lane_le32 (b : List Byte) (o : Nat) {k : Nat} (hk : k < 4) : lane (le32 b o) k = byteAt b (o + k) := by
  apply BitVec.eq_of_getLsbD_eq
  intro r hr
  rw [getLsbD_lane _ _ _ hr, getLsbD_le32 _ _ _ _ hk hr]

/-- The lanes of a chunk's word are the chunk (R91). -/
theorem dataBytes_le32 {chunk : List Byte} (z : List Byte) (h : chunk.length ≤ 4) :
    dataBytes (le32 (chunk ++ z) 0) chunk.length = chunk := by
  refine List.ext_getElem (by simp) fun k _ hk => ?_
  simp only [dataBytes, List.getElem_map, List.getElem_range]
  rw [lane_le32 _ _ (by omega), Nat.zero_add, byteAt_append_left _ _ _ hk]
  simp [byteAt, hk]

/-- The put of a chunk extends the channel's message by the chunk (R91). -/
theorem runs_asmPutChunk {nb : Fin 5} {chunk : List Byte} (hlen : chunk.length = nb.val)
    (h : (s.chan c).Represents p) :
    ∃ ch : Channel c, Runs (asmPutChunk c nb chunk) s (s.setChan c ch) ∧ ch.Represents (p ++ chunk)
      ∧ ch.err = (s.chan c).err := by
  have hbytes : dataBytes (putWord nb (le32 (chunk ++ zeros (4 - nb.val)) 0)) nb.val = chunk := by
    rw [dataBytes_putWord, ← hlen, dataBytes_le32 _ (by omega)]
  refine ⟨_, runs_asmPut c nb _ s, ?_, by simp⟩
  have hput := (h.writeData (putWord nb (le32 (chunk ++ zeros (4 - nb.val)) 0))).ingest nb.val
  rwa [Channel.writeData_data, hbytes] at hput

/-- An absorb extends the channel's message by its bytes, chunk by chunk (R91). -/
theorem runs_asmAbsorb (h : (s.chan c).Represents p) :
    ∃ ch : Channel c, Runs (asmAbsorb c m) s (s.setChan c ch) ∧ ch.Represents (p ++ m) ∧ ch.err = (s.chan c).err := by
  induction m using asmAbsorb.induct generalizing s p with
  | case1 => exact ⟨s.chan c, by simpa [asmAbsorb] using Runs.nil s, by simpa using h, rfl⟩
  | case2 b₀ => exact runs_asmPutChunk rfl h
  | case3 b₀ b₁ => exact runs_asmPutChunk rfl h
  | case4 b₀ b₁ b₂ => exact runs_asmPutChunk rfl h
  | case5 b₀ b₁ b₂ b₃ rest ih =>
    obtain ⟨ch, hrun, hrep, herr⟩ := runs_asmPutChunk (nb := 4) (chunk := [b₀, b₁, b₂, b₃]) rfl h
    obtain ⟨ch', hrun', hrep', herr'⟩ := ih (s := s.setChan c ch) (p := p ++ [b₀, b₁, b₂, b₃]) (by simpa using hrep)
    rw [State.setChan_setChan] at hrun'
    exact ⟨ch', hrun.append hrun', by simpa using hrep', by simpa [herr] using herr'⟩

/-- The one-shot leaves the finalised channel of its message, whatever the channel held (R92). -/
theorem runs_asmOneshot (hlen : s.lenOverflow = .wrap ∨ m.length ≤ 2 ^ 61 - 1) :
    ∃ ch : Channel c, Runs (asmOneshot c m) s (s.setChan c ch.finalize) ∧ ch.Represents m ∧ ch.err = false := by
  have hreset := runs_asmReset c s
  obtain ⟨ch, habsorb, hrep, herr⟩ := runs_asmAbsorb (m := m) (s := s.setChan c (s.chan c).reset) (c := c) (p := [])
    (by simpa using Channel.reset_represents _)
  rw [State.setChan_setChan] at habsorb
  have hfin : (s.setChan c ch).mayFinalize c := by
    simpa only [State.mayFinalize, State.setChan_lenOverflow, State.setChan_chan, hrep.absorbed, List.nil_append]
      using hlen
  have hfinalize := runs_asmFinalize hfin
  rw [State.setChan_setChan, State.setChan_chan] at hfinalize
  exact ⟨ch, (hreset.append habsorb).append hfinalize, hrep, by simpa using herr⟩

/-- Settles O45: the one-shot's accesses run to the finalised channel of the message. -/
theorem oneshotHashesTheMessage : Obligations.OneshotHashesTheMessage := by
  intro c m rest s hlen hp
  obtain ⟨ch, hrun, hrep, herr⟩ := runs_asmOneshot (c := c) hlen
  refine ⟨_, hrun.run_eq hp, takeAccess_pending _ _, ?_⟩
  simp [hrep.finalize, herr, hrep.holds.finalDigest_eq]

end Sys2Proof.Machine
end

section
/-! PROOFS. Feeding a channel and finalising it (40_hasher_commands.md R108, R116, R117): a feeding absorbs its bytes,
FINALIZE reads H, COUNT and BUF only and writes none of them, and so neither the way the bytes came nor an earlier
FINALIZE shows in a digest. -/

namespace Sys2Proof.Machine

variable {s t : State} {i : Instr} {is js : List Instr} {c : Alg}

/-! ## Instructions one after the other -/

theorem execAll_cons (h : exec i s = .next t) : execAll (i :: is) s = execAll is t := by
  simp only [execAll, h]

theorem execAll_singleton (i : Instr) (s : State) : execAll [i] s = exec i s := by
  rw [execAll]
  cases exec i s <;> rfl

/-- Instructions behind some that complete go on from the state those leave. -/
theorem execAll_append (h : execAll is s = .next t) : execAll (is ++ js) s = execAll js t := by
  induction is generalizing s with
  | nil => cases h; rfl
  | cons i is ih =>
    cases hi : exec i s with
    | next s' =>
      rw [execAll_cons hi] at h
      rw [List.cons_append, execAll_cons hi, ih h]
    | _ => simp [execAll, hi] at h

/-! ## What a feeding makes of a channel -/

namespace Channel

variable {alg : Alg} {ch ch' : Channel alg}

/-- A channel after a feeding: its writes of DATA and its INGESTs, in order. -/
def feed (ch : Channel alg) : List Feed → Channel alg
  | [] => ch
  | .data v :: fs => (ch.writeData v).feed fs
  | .ingest nb :: fs => (ch.ingest nb.val).feed fs

theorem sameMessage.symm (h : ch.sameMessage ch') : ch'.sameMessage ch := by
  obtain ⟨hh, hc, hb⟩ := h
  exact ⟨hh.symm, hc.symm, hb.symm⟩

theorem sameMessage.trans {ch'' : Channel alg} (h : ch.sameMessage ch') (h' : ch'.sameMessage ch'') :
    ch.sameMessage ch'' := by
  obtain ⟨hh, hc, hb⟩ := h
  obtain ⟨hh', hc', hb'⟩ := h'
  exact ⟨hh'.trans hh, hc'.trans hc, hb'.trans hb⟩

/-- The digest is a function of H, COUNT and BUF (R107). -/
theorem sameMessage.finalDigest_eq (h : ch.sameMessage ch') : ch'.finalDigest = ch.finalDigest := by
  obtain ⟨hh, hc, hb⟩ := h
  rw [finalDigest, finalDigest, hh, hc, hb]

theorem sameMessage_writeData (ch : Channel alg) (v : Word) : ch.sameMessage (ch.writeData v) := ⟨rfl, rfl, rfl⟩

theorem sameMessage_ingest (ch : Channel alg) (n : Nat) : (ch.absorb (dataBytes ch.data n)).sameMessage (ch.ingest n) :=
  ⟨rfl, rfl, rfl⟩

/-- A feeding moves the message as absorbing its bytes one by one does (R117, 70_reset_and_hazards.md R276). -/
theorem sameMessage_feed (ch : Channel alg) (fs : List Feed) :
    (ch.absorb (feedBytes ch.data fs)).sameMessage (ch.feed fs) := by
  induction fs generalizing ch with
  | nil => exact ⟨rfl, rfl, rfl⟩
  | cons f fs ih =>
    cases f with
    | data v => exact (sameMessage_absorb (ch.sameMessage_writeData v) _).trans (ih _)
    | ingest nb =>
      have hnext := ih (ch.ingest nb.val)
      rw [ingest_data] at hnext
      rw [feedBytes, absorb_append]
      exact (sameMessage_absorb (ch.sameMessage_ingest nb.val) _).trans hnext

@[simp] theorem feed_absorbed (ch : Channel alg) (fs : List Feed) :
    (ch.feed fs).absorbed = ch.absorbed + (feedBytes ch.data fs).length := by
  induction fs generalizing ch with
  | nil => rfl
  | cons f fs ih => cases f <;> simp [feed, feedBytes, ih, Nat.add_assoc]

/-- Channels whose elements agree are alike, but for their compressors' registers. -/
theorem sameMessage.visible_eq (h : ch.sameMessage ch') (hdata : ch'.data = ch.data) (hdv : ch'.dv = ch.dv)
    (herr : ch'.err = ch.err) (hdigest : ch'.digest = ch.digest) (habsorbed : ch'.absorbed = ch.absorbed) :
    ch'.visible = ch.visible := by
  obtain ⟨hh, hc, hb⟩ := h
  simp [visible, *]

/-- Two channels that differ at most in what FINALIZE delivers (DIGEST and DV) and in their compressors' registers. -/
structure SameButDelivery (ch ch' : Channel alg) : Prop where
  message : ch.sameMessage ch'
  data : ch'.data = ch.data
  err : ch'.err = ch.err
  absorbed : ch'.absorbed = ch.absorbed

namespace SameButDelivery

theorem refl (ch : Channel alg) : ch.SameButDelivery ch := ⟨⟨rfl, rfl, rfl⟩, rfl, rfl, rfl⟩

/-- FINALIZE only delivers (R108). -/
theorem finalize_right (h : ch.SameButDelivery ch') : ch.SameButDelivery ch'.finalize :=
  ⟨h.message, h.data, h.err, h.absorbed⟩

theorem ingest (h : ch.SameButDelivery ch') (n : Nat) : (ch.ingest n).SameButDelivery (ch'.ingest n) := by
  refine ⟨?_, by simp [h.data], by simp [h.err], by simp [h.absorbed]⟩
  have hbytes := ch'.sameMessage_ingest n
  rw [h.data] at hbytes
  exact ((ch.sameMessage_ingest n).symm.trans (sameMessage_absorb h.message _)).trans hbytes

theorem feed (h : ch.SameButDelivery ch') (fs : List Feed) : (ch.feed fs).SameButDelivery (ch'.feed fs) := by
  induction fs generalizing ch ch' with
  | nil => exact h
  | cons f fs ih =>
    cases f with
    | data v => exact ih ⟨h.message, rfl, h.err, h.absorbed⟩
    | ingest nb => exact ih (h.ingest nb.val)

/-- FINALIZE overwrites all they differ in. -/
theorem finalize_visible_eq (h : ch.SameButDelivery ch') : ch'.finalize.visible = ch.finalize.visible := by
  have hmessage : ch.finalize.sameMessage ch'.finalize := h.message
  exact hmessage.visible_eq h.data rfl h.err h.message.finalDigest_eq h.absorbed

end SameButDelivery

end Channel

/-- Every feeding completes. -/
theorem execAll_feedInstrs (c : Alg) (fs : List Feed) (s : State) :
    execAll (feedInstrs c fs) s = .next (s.setChan c ((s.chan c).feed fs)) := by
  induction fs generalizing s with
  | nil => simp [feedInstrs, execAll, Channel.feed]
  | cons f fs ih =>
    cases f with
    | data v =>
      have hdata : exec (.wrData c v) s = .next (s.setChan c ((s.chan c).writeData v)) := rfl
      rw [feedInstrs, execAll_cons hdata, ih, State.setChan_setChan, State.setChan_chan, Channel.feed]
    | ingest nb =>
      rw [feedInstrs, execAll_cons (exec_ingestInstr c nb s), ih, State.setChan_setChan, State.setChan_chan,
        Channel.feed]

/-! ## FINALIZE after a feeding (R108, R116, R117) -/

/-- Whether FINALIZE is within its bound depends on LEN_OVERFLOW and the count of absorbed bytes (R146). -/
theorem State.mayFinalize_setChan {ch : Channel c} (ha : ch.absorbed = (s.chan c).absorbed) (h : s.mayFinalize c) :
    (s.setChan c ch).mayFinalize c := by
  rwa [mayFinalize, setChan_lenOverflow, setChan_chan, ha]

/-- FINALIZE twice in a row. -/
theorem exec_finalize_finalize (h : s.mayFinalize c) :
    exec (.finalize c) (s.setChan c (s.chan c).finalize) = .next (s.setChan c (s.chan c).finalize.finalize) := by
  have h' := State.mayFinalize_setChan (ch := (s.chan c).finalize) rfl h
  rw [exec_finalize h', State.setChan_setChan, State.setChan_chan]

/-- FINALIZE answers the same, up to the compressors' registers, on channels that differ in its deliveries only. -/
theorem visibleOutcome_finalize_congr {ch ch' : Channel c} (h : ch.SameButDelivery ch') (s : State) :
    visibleOutcome (exec (.finalize c) (s.setChan c ch')) = visibleOutcome (exec (.finalize c) (s.setChan c ch)) := by
  have hrefused : finalizeRefused c (s.setChan c ch') = finalizeRefused c (s.setChan c ch) := by
    simp [finalizeRefused, h.absorbed]
  simp only [exec, execFinalize, hrefused]
  split
  · rfl
  · simp only [visibleOutcome, State.setChan_chan, State.setChan_setChan, State.setChan_visible, h.finalize_visible_eq]

/-- A feeding and a FINALIZE, from a state with channel c replaced. -/
theorem execAll_feed_finalize (fs : List Feed) (s : State) (ch : Channel c) :
    execAll (feedInstrs c fs ++ [.finalize c]) (s.setChan c ch) = exec (.finalize c) (s.setChan c (ch.feed fs)) := by
  rw [execAll_append (execAll_feedInstrs c fs _), execAll_singleton, State.setChan_setChan, State.setChan_chan]

/-- Settles O17: the first FINALIZE leaves the message, so the second computes the same digest. -/
theorem finalizeTwiceGivesTheSameDigest : Obligations.FinalizeTwiceGivesTheSameDigest := by
  intro c s h
  refine ⟨_, _, exec_finalize h, exec_finalize_finalize h, ?_⟩
  rw [State.setChan_chan, State.setChan_chan]
  exact ⟨(Channel.SameButDelivery.refl (s.chan c)).finalize_right.message.finalDigest_eq, rfl, rfl, rfl⟩

/-- Settles O18: the earlier FINALIZEs change what FINALIZE delivers only, a feeding carries that difference along, and
the last FINALIZE overwrites it. -/
theorem earlierFinalizesLeaveNoTrace : Obligations.EarlierFinalizesLeaveNoTrace := by
  intro c s feed h
  obtain ⟨t, u, ht, hu, hdigest, -⟩ := finalizeTwiceGivesTheSameDigest c s h
  have hplain := execAll_feed_finalize feed s (s.chan c)
  rw [State.setChan_self] at hplain
  refine ⟨⟨t, u, ht, hu, hdigest⟩, ?_, fun hwrap => ?_⟩
  · have htwice := (Channel.SameButDelivery.refl (s.chan c)).finalize_right.finalize_right
    rw [hplain, List.append_assoc, List.cons_append, execAll_cons (exec_finalize h), List.cons_append,
      execAll_cons (exec_finalize_finalize h), List.nil_append, execAll_feed_finalize]
    exact visibleOutcome_finalize_congr (htwice.feed feed) s
  · rw [hplain]
    exact ⟨_, exec_finalize (.inl (by rwa [State.setChan_lenOverflow]))⟩

/-- Settles O42: both feedings move the message as absorbing their common bytes does. -/
theorem chunkingDoesNotMatter : Obligations.ChunkingDoesNotMatter := by
  intro c s feed feed' hbytes
  have hfed := (s.chan c).sameMessage_feed feed
  have hfed' := (s.chan c).sameMessage_feed feed'
  rw [← hbytes] at hfed'
  have hsame := hfed.symm.trans hfed'
  refine ⟨_, _, execAll_feedInstrs c feed s, execAll_feedInstrs c feed' s, ?_, fun h => ?_⟩
  · rwa [State.setChan_chan, State.setChan_chan]
  · have h' : (s.setChan c ((s.chan c).feed feed')).mayFinalize c := by
      simpa [State.mayFinalize, hbytes] using h
    refine ⟨_, _, exec_finalize h, exec_finalize h', ?_⟩
    simpa using hsame.finalDigest_eq.symm

end Sys2Proof.Machine
end

section
/-! PROOFS. The two channels are independent (40_hasher_commands.md R118): what an instruction does is an operation on
its own channel, the same whatever the rest of the machine holds, so any interleaving is two histories side by side. -/

namespace Sys2Proof.Machine

variable {s s' t : State} {i : Instr} {is : List Instr} {c : Alg}

/-! ## What an instruction is, as a function of the state -/

/-- The forms an instruction on channel c can have, each uniform in the state: an operation on the channel, FINALIZE
with its bound, a read, or a refusal whatever the state. -/
inductive ActsOn (c : Alg) : (State → Host.Outcome State Fault Refusal) → Prop
  | keep : ActsOn c .next
  | update (f : Channel c → Channel c) (hf : ∀ ch, (f ch.visible).visible = (f ch).visible) :
      ActsOn c fun s => .next (s.setChan c (f (s.chan c)))
  | finalize : ActsOn c (execFinalize c)
  | read (r : BitVec 6) : ActsOn c fun s => .next { s with response := some ((s.chan c).readRegister r) }
  | refuse (r : Refusal) : ActsOn c fun _ => .refused r

theorem ActsOn.ingest (c : Alg) (nb : Nat) : ActsOn c (Machine.ingest nb c) :=
  .update (·.ingest nb) fun ch => ch.ingest_visible nb

theorem ActsOn.writeData (c : Alg) (v : Word) : ActsOn c (execWrData c v) := .update (·.writeData v) fun _ => rfl

theorem ActsOn.executeCommand (c : Alg) (v : Word) : ActsOn c (executeCommand c v) := by
  unfold Machine.executeCommand
  cases decodeCommand v with
  | nop => exact .keep
  | reset => exact .update Channel.reset fun _ => rfl
  | ingest nb => exact .ingest c nb
  | finalize => exact .finalize
  | reject => exact .update Channel.reject fun _ => rfl

theorem ActsOn.execWrReg (c : Alg) (r : BitVec 6) (v : Word) : ActsOn c (execWrReg c r v) := by
  unfold Machine.execWrReg
  split
  · split
    · exact .executeCommand c v
    · split
      · exact .writeData c v
      · exact .keep
  · exact .refuse .misaligned

theorem ActsOn.execRdReg (c : Alg) (r : BitVec 6) : ActsOn c (execRdReg c r) := by
  unfold Machine.execRdReg
  split
  · exact .read r
  · exact .refuse .misaligned

/-- Every instruction acts on its channel in one of these forms. -/
theorem exec_actsOn (i : Instr) : ActsOn i.channel (exec i) := by
  cases i with
  | nop c => exact .keep
  | reset c => exact .update Channel.reset fun _ => rfl
  | ingest0 c => exact .ingest c 0
  | ingest1 c => exact .ingest c 1
  | ingest2 c => exact .ingest c 2
  | ingest3 c => exact .ingest c 3
  | ingest4 c => exact .ingest c 4
  | finalize c => exact .finalize
  | wrData c v => exact .writeData c v
  | wrReg c r v => exact .execWrReg c r v
  | rdReg c r => exact .execRdReg c r

/-! ## What an instruction depends on -/

/-- Two machines that a host of channel c alone cannot tell apart: that channel, but for its compressor's registers,
and the parameter agree. -/
structure AgreesOn (c : Alg) (s s' : State) : Prop where
  chan : (s.chan c).visible = (s'.chan c).visible
  lenOverflow : s.lenOverflow = s'.lenOverflow

/-- Corresponding updates of channel c keep two machines alike. -/
theorem AgreesOn.setChan (h : AgreesOn c s s') {ch ch' : Channel c} (hch : ch.visible = ch'.visible) :
    AgreesOn c (s.setChan c ch) (s'.setChan c ch') :=
  ⟨by rwa [State.setChan_chan, State.setChan_chan], by simpa using h.lenOverflow⟩

/-- A channel operation that does not read the compressor's registers gives like channels like results. -/
theorem visible_congr {f : Channel c → Channel c} (hf : ∀ ch, (f ch.visible).visible = (f ch).visible)
    {ch ch' : Channel c} (h : ch.visible = ch'.visible) : (f ch).visible = (f ch').visible := by
  rw [← hf ch, h, hf ch']

/-- FINALIZE is refused on both of two machines alike, or on neither. -/
theorem AgreesOn.finalizeRefused_eq (h : AgreesOn c s s') : finalizeRefused c s = finalizeRefused c s' := by
  have habsorbed : (s.chan c).absorbed = (s'.chan c).absorbed := by
    rw [← Channel.visible_absorbed, h.chan, Channel.visible_absorbed]
  rw [finalizeRefused, finalizeRefused, h.lenOverflow, habsorbed]

theorem AgreesOn.readRegister_eq (h : AgreesOn c s s') (r : BitVec 6) :
    (s.chan c).readRegister r = (s'.chan c).readRegister r := by
  rw [← Channel.visible_readRegister, h.chan, Channel.visible_readRegister]

/-- On two machines alike an instruction completes alike, or is refused alike. -/
theorem ActsOn.congr {f : State → Host.Outcome State Fault Refusal} (hf : ActsOn c f) (h : AgreesOn c s s') :
    (∃ t t', f s = .next t ∧ f s' = .next t' ∧ AgreesOn c t t' ∧ (s.response = s'.response → t.response = t'.response))
      ∨ ∃ r, f s = .refused r ∧ f s' = .refused r := by
  cases hf with
  | keep => exact .inl ⟨s, s', rfl, rfl, h, id⟩
  | update f hf => exact .inl ⟨_, _, rfl, rfl, h.setChan (visible_congr hf h.chan), by simp⟩
  | finalize =>
    unfold execFinalize
    rw [← h.finalizeRefused_eq]
    split
    · exact .inr ⟨_, rfl, rfl⟩
    · exact .inl ⟨_, _, rfl, rfl, h.setChan (visible_congr Channel.visible_finalize_visible h.chan), by simp⟩
  | read r =>
    refine .inl ⟨_, _, rfl, rfl, ⟨?_, h.lenOverflow⟩, fun _ => congrArg some (h.readRegister_eq r)⟩
    rw [State.chan_withResponse s, State.chan_withResponse s']
    exact h.chan
  | refuse r => exact .inr ⟨r, rfl, rfl⟩

/-- An instruction that completes completes on any machine alike. -/
theorem AgreesOn.exec (h : AgreesOn i.channel s s') (he : exec i s = .next t) :
    ∃ t', Machine.exec i s' = .next t' ∧ AgreesOn i.channel t t' := by
  rcases (exec_actsOn i).congr h with ⟨u, t', hu, ht', hagree, -⟩ | ⟨r, hr, -⟩
  · rw [he] at hu
    cases hu
    exact ⟨t', ht', hagree⟩
  · rw [he] at hr
    cases hr

/-- An instruction of the other channel leaves a machine alike. -/
theorem AgreesOn.exec_other (h : AgreesOn c s s') (he : Machine.exec i s = .next t) (hc : c ≠ i.channel) :
    AgreesOn c t s' :=
  ⟨by rw [exec_chan_of_ne he hc, h.chan], (exec_keeps_port he).2.trans h.lenOverflow⟩

/-! ## Interleavings -/

/-- A sequence that completes ends, on channel c, as the instructions of channel c alone do. -/
theorem AgreesOn.execAll_filter (h : AgreesOn c s s') (hs : execAll is s = .next t) :
    ∃ t', execAll (is.filter fun i => i.channel == c) s' = .next t' ∧ AgreesOn c t t' := by
  induction is generalizing s s' with
  | nil => cases hs; exact ⟨s', rfl, h⟩
  | cons i is ih =>
    cases he : Machine.exec i s with
    | next s₁ =>
      rw [execAll_cons he] at hs
      by_cases hc : i.channel = c
      · subst hc
        obtain ⟨s₁', he', h₁⟩ := h.exec he
        rw [List.filter_cons_of_pos (by simp), execAll_cons he']
        exact ih h₁ hs
      · rw [List.filter_cons_of_neg (by simpa using hc)]
        exact ih (h.exec_other he (Ne.symm hc)) hs
    | _ => simp [execAll, he] at hs

/-- Settles O35: an instruction keeps the other channel, acts alike on machines alike on its own, and so, one
instruction after the other, does any interleaving. -/
theorem channelsAreIndependent : Obligations.ChannelsAreIndependent := by
  refine ⟨fun i s t h => ?_, fun i s s' hch hlen hresp => ?_, fun is s t c hs => ?_⟩
  · rw [exec_chan_of_ne h (other_ne _)]
  · rcases (exec_actsOn i).congr ⟨hch, hlen⟩ with ⟨t, t', ht, ht', hagree, hresp'⟩ | hrefused
    · exact .inl ⟨t, t', ht, ht', hagree.chan, hresp' hresp⟩
    · exact .inr hrefused
  · obtain ⟨u, hu, hagree⟩ := AgreesOn.execAll_filter (c := c) ⟨rfl, rfl⟩ hs
    exact ⟨u, hu, hagree.chan.symm⟩

end Sys2Proof.Machine
end

section
/-! PROOFS. Absorbing a span (40_hasher_commands.md R103 to R105, R112): block by block, as the source's four steps do
it, is byte by byte; and an INGEST, whose span is too short to complete two blocks. -/

namespace Sys2Proof.Machine

variable {alg : Alg} {ch : Channel alg}

namespace Channel

/-- From an empty BUF, a span of k whole blocks and fewer than 64 bytes: the blocks are compressed in order, each adds
64 to COUNT, and the rest stays in BUF. -/
theorem absorb_blocks (hbuf : ch.buf = []) (xs : List Byte) :
    (ch.absorb xs).h = compressBlocks alg ch.h xs (xs.length / 64)
      ∧ (ch.absorb xs).count = ch.count + BitVec.ofNat 64 (64 * (xs.length / 64))
      ∧ (ch.absorb xs).buf = xs.drop (64 * (xs.length / 64)) := by
  generalize hk : xs.length / 64 = k
  induction k generalizing ch xs with
  | zero =>
    rw [absorb_short ch xs (by simp [hbuf]; omega)]
    simp [hbuf]
  | succ k ih =>
    have hlen : (xs.take 64).length = 64 := by rw [List.length_take]; omega
    have hne : xs.take 64 ≠ [] := List.ne_nil_of_length_pos (by omega)
    have hfill := absorb_fill ch (xs.take 64) hne (by rw [hbuf, hlen]; rfl)
    have hsplit : ch.absorb xs = (ch.absorb (xs.take 64)).absorb (xs.drop 64) := by
      rw [← absorb_append, List.take_append_drop]
    obtain ⟨hh, hc, hb⟩ := ih (ch := ch.absorb (xs.take 64)) (by rw [hfill]) (xs.drop 64)
      (by rw [List.length_drop]; omega)
    rw [hsplit, hh, hc, hb, hfill]
    refine ⟨?_, ?_, ?_⟩
    · rw [compressBlocks_succ_left, hbuf, List.nil_append]
    · rw [Nat.mul_succ, Nat.add_comm _ 64, BitVec.ofNat_add, BitVec.add_assoc]; rfl
    · rw [List.drop_drop, Nat.mul_succ, Nat.add_comm]

/-- A span that does not complete the block in BUF: only step 1 of the four does anything. -/
theorem fourStepIngest_short {xs : List Byte} (h : ch.buf.length + xs.length ≤ 63) :
    fourStepIngest ch xs = (ch.h, ch.count, ch.buf ++ xs) := by
  have htake : xs.take (64 - ch.buf.length) = xs := List.take_of_length_le (by omega)
  have hdrop : xs.drop (64 - ch.buf.length) = [] := List.drop_of_length_le (by omega)
  have hopen : ch.buf.length + xs.length ≠ 64 := by omega
  simp [fourStepIngest, htake, hdrop, hopen]

/-- A span that completes the block in BUF with its first bytes `ys`: step 2 compresses the block, and steps 3 and 4
work on the rest `zs`. -/
theorem fourStepIngest_fill {ys : List Byte} (zs : List Byte) (h : ch.buf.length + ys.length = 64) :
    fourStepIngest ch (ys ++ zs)
      = (compressBlocks alg (compress alg ch.h (ch.buf ++ ys)) zs (zs.length / 64),
        ch.count + 64 + BitVec.ofNat 64 (64 * (zs.length / 64)), zs.drop (64 * (zs.length / 64))) := by
  have htaken : 64 - ch.buf.length = ys.length := by omega
  have hfull : (ch.buf ++ ys).length = 64 := by rw [List.length_append, h]
  simp [fourStepIngest, htaken, hfull]

/-- The four steps absorb the span: what completes the block in BUF first, and then the rest from an empty BUF. -/
theorem fourStepIngest_eq_absorb (hb : ch.buf.length ≤ 63) (xs : List Byte) :
    fourStepIngest ch xs = ((ch.absorb xs).h, (ch.absorb xs).count, (ch.absorb xs).buf) := by
  by_cases hshort : ch.buf.length + xs.length ≤ 63
  · rw [fourStepIngest_short hshort, absorb_short ch xs hshort]
  · obtain ⟨ys, zs, rfl, hys⟩ : ∃ ys zs, xs = ys ++ zs ∧ ch.buf.length + ys.length = 64 :=
      ⟨_, _, (List.take_append_drop (64 - ch.buf.length) xs).symm, by rw [List.length_take]; omega⟩
    have hne : ys ≠ [] := by rintro rfl; simp at hys; omega
    have hfill := absorb_fill ch ys hne hys
    obtain ⟨hh, hc, hbuf⟩ := absorb_blocks (ch := ch.absorb ys) (by rw [hfill]) zs
    rw [fourStepIngest_fill zs hys, absorb_append, hh, hc, hbuf, hfill]

end Channel

/-- Settles O44: either the span stays in BUF, or it completes the block there and then goes block by block. -/
theorem fourStepIngestIsBytewise : Obligations.FourStepIngestIsBytewise :=
  fun _ _ xs hb => Channel.fourStepIngest_eq_absorb hb xs

/-! ## INGEST (R103, R112) -/

/-- Settles O13: the lanes of DATA stay in BUF, or complete one block and no second one. -/
theorem ingestAbsorbsTheLanesOfData : Obligations.IngestAbsorbsTheLanesOfData := by
  intro c nb s hb
  refine ⟨_, exec_ingestInstr c nb s, ?_, by simp, by simp, by simp, by simp, State.sameOutside_setChan _ _ _⟩
  have hlen : (dataBytes (s.chan c).data nb.val).length = nb.val := dataBytes_length _ _
  simp only [State.setChan_chan, Channel.ingest_h, Channel.ingest_count, Channel.ingest_buf, List.length_append]
  split
  · rw [Channel.absorb_short _ _ (by omega)]
    exact ⟨rfl, rfl, rfl⟩
  · rw [Channel.absorb_block _ _ hb (by omega) (by omega)]
    exact ⟨rfl, rfl, rfl⟩

/-- Settles O34: the byte completes the last block COUNT can count, and the addition wraps. -/
theorem countWrapsWithoutAFlag : Obligations.CountWrapsWithoutAFlag := by
  intro c s hb hcount
  have hfill := Channel.absorb_fill (s.chan c) (dataBytes (s.chan c).data 1) (by simp [dataBytes]) (by simp [hb])
  refine ⟨_, exec_ingestInstr c 1 s, ?_, ?_, by simp⟩
  · simp only [State.setChan_chan, Channel.ingest_count, Fin.val_one, hfill, hcount]
    rfl
  · simp only [State.setChan_chan, Channel.ingest_buf, Fin.val_one, hfill]

end Sys2Proof.Machine
end

section
/-! PROOFS. The commands and the register accesses one by one (40_hasher_commands.md R100 to R120): what each answers,
what it makes of its channel's message, and what it leaves alone. -/

namespace Sys2Proof.Machine

variable {alg : Alg} {ch : Channel alg} {s t : State} {i : Instr} {c : Alg} {v : Word} {r : BitVec 6} {m : List Byte}

/-! ## NOP, RESET, FINALIZE (R101, R102, R106, R107) -/

theorem exec_nop (c : Alg) (s : State) : exec (.nop c) s = .next s := rfl

theorem exec_reset (c : Alg) (s : State) : exec (.reset c) s = .next (s.setChan c (s.chan c).reset) := rfl

theorem exec_ingest0 (c : Alg) (s : State) : exec (.ingest0 c) s = .next s := by
  rw [show Instr.ingest0 c = ingestInstr c 0 from rfl, exec_ingestInstr, Fin.val_zero, Channel.ingest_zero,
    State.setChan_self]

/-- A FINALIZE that completes was not refused. -/
theorem exec_finalize_eq_next (h : exec (.finalize c) s = .next t) :
    finalizeRefused c s = false ∧ t = s.setChan c (s.chan c).finalize := by
  simp only [exec, execFinalize] at h
  split at h
  · cases h
  · rename_i hf
    cases h
    exact ⟨by simpa using hf, rfl⟩

/-- The only legal word whose OP is 0 is NOP's (30_encoding.md R84). -/
theorem eq_zero_of_legal (hop : opField v = 0) (hv : v ∈ legalCommandWords) : v = 0 := by
  simp only [legalCommandWords, List.mem_cons, List.not_mem_nil, or_false] at hv
  rcases hv with rfl | rfl | rfl | rfl | rfl | rfl | rfl | rfl
  · rfl
  all_goals exact absurd hop (by decide)

/-- Settles O11: both answer the state itself, and a word with OP 0 is NOP's or reserved. -/
theorem nopAndIngestZeroChangeNothing : Obligations.NopAndIngestZeroChangeNothing := by
  refine ⟨fun c s => ⟨⟨s, exec_nop c s, rfl⟩, s, exec_ingest0 c s, rfl⟩, fun v hop hv => ?_⟩
  exact decodeCommand_of_not_legal v fun hlegal => hv (eq_zero_of_legal hop hlegal)

/-- Settles O12: RESET replaces the channel, field by field. -/
theorem resetReinitialisesTheChannel : Obligations.ResetReinitialisesTheChannel := by
  intro c s
  refine ⟨_, exec_reset c s, ?_⟩
  simp [State.sameOutside_setChan, Channel.Fresh]

/-- Settles O15: FINALIZE replaces the channel, field by field. -/
theorem finalizeDeliversTheDigest : Obligations.FinalizeDeliversTheDigest := by
  intro c s h
  refine ⟨_, exec_finalize h, ?_⟩
  simp [State.sameOutside_setChan, Channel.sameMessage, Channel.finalDigest]

/-! ## The register accesses (R100, R109, R110) -/

/-- Settles O19: both spellings of the write store the word. -/
theorem dataWriteStoresTheWord : Obligations.DataWriteStoresTheWord := by
  rintro c v s i (rfl | rfl)
  · exact ⟨_, rfl, rfl⟩
  · exact ⟨_, rfl, rfl⟩

/-- The register map, in the order of its offsets (R110, 10_state.md R35). -/
theorem Channel.readRegister_eq (ch : Channel alg) (r : BitVec 6) : ch.readRegister r =
    if r = 0x04 then ch.data
    else if r = 0x08 then ch.status
    else if r = 0x0C then ch.count.extractLsb' 0 32
    else if r = 0x10 then ch.count.extractLsb' 32 32
    else if r = 0x20 then ch.digest[0]
    else if r = 0x24 then ch.digest[1]
    else if r = 0x28 then ch.digest[2]
    else if r = 0x2C then ch.digest[3]
    else if r = 0x30 then ch.digest[4]
    else 0 := by
  obtain ⟨n, hn, rfl⟩ : ∃ n < 64, r = BitVec.ofNat 6 n := ⟨r.toNat, r.isLt, by simp⟩
  interval_cases n <;> rfl

/-- The window offset of a register is the channel's bit before the register offset (20_memory.md R60). -/
theorem windowOffset_eq_append (c : Alg) (r : BitVec 6) :
    windowOffset c r = (if c = .sha1 then (1 : BitVec 1) else 0) ++ r := by
  cases c <;> rfl

/-- Settles O20: a read returns its register from the register map. -/
theorem readReturnsTheRegister : Obligations.ReadReturnsTheRegister := by
  intro c r s hr
  refine ⟨⟨_, exec_rdReg c s hr, ?_⟩, ?_⟩
  · rw [Channel.readRegister_eq]
    rfl
  · rw [← windowOffset_eq_append]
    exact decode_read_windowOffset c (by simpa [offsetAligned] using hr)

/-- Settles O26: the write runs the command the word decodes to. -/
theorem cmdWriteExecutesTheDecodedCommand : Obligations.CmdWriteExecutesTheDecodedCommand := by
  intro c v s
  refine ⟨fun i hi => (exec_wrReg_cmd c v s).trans (executeCommand_eq_exec hi), fun hnone => ?_⟩
  exact ⟨_, (exec_wrReg_cmd c v s).trans (executeCommand_reserved (instr_eq_none_iff.mp hnone)), rfl⟩

/-! ## ERR gates nothing (R119) -/

/-- An INGEST does not look at ERR. -/
theorem Channel.ingest_reject_visible (ch : Channel alg) (n : Nat) :
    (ch.reject.ingest n).visible = (ch.ingest n).reject.visible := by
  have hmessage : (ch.ingest n).reject.sameMessage (ch.reject.ingest n) :=
    sameMessage_absorb (ch := ch) (ch' := ch.reject) ⟨rfl, rfl, rfl⟩ (dataBytes ch.data n)
  exact hmessage.visible_eq (by simp) (by simp) (by simp) (by simp) (by simp)

/-- The instructions of the legal command words (30_encoding.md R84). -/
theorem Command.instr_cases {cmd : Command} (h : cmd.instr c = some i) :
    i = .nop c ∨ i = .reset c ∨ (∃ nb, i = ingestInstr c nb) ∨ i = .finalize c := by
  cases cmd with
  | nop => cases h; exact .inl rfl
  | reset => cases h; exact .inr (.inl rfl)
  | ingest nb => exact .inr (.inr (.inl ⟨nb, by fin_cases nb <;> cases h <;> rfl⟩))
  | finalize => cases h; exact .inr (.inr (.inr rfl))
  | reject => cases h

/-- Two machines made from one by replacing channel c agree outside it. -/
theorem State.sameOutside_setChan_setChan (s : State) (ch ch' : Channel c) :
    State.sameOutside c (s.setChan c ch) (s.setChan c ch') := by
  simp [sameOutside]

/-- A legal command that completes is an operation on the channel that does the same with ERR set, ERR aside. -/
theorem exec_legal_cases {cmd : Command} (hi : cmd.instr c = some i) (h : exec i s = .next t) :
    ∃ ch, t = s.setChan c ch ∧ ∃ ch', exec i (s.setChan c (s.chan c).reject) = .next (s.setChan c ch')
      ∧ { ch'.visible with err := false } = { ch.visible with err := false } := by
  rcases Command.instr_cases hi with rfl | rfl | ⟨nb, rfl⟩ | rfl
  · cases h
    exact ⟨s.chan c, (s.setChan_self c).symm, (s.chan c).reject, exec_nop c _, rfl⟩
  · cases h
    exact ⟨_, rfl, (s.chan c).reject.reset, by rw [exec_reset]; simp, rfl⟩
  · rw [exec_ingestInstr] at h ⊢
    cases h
    refine ⟨_, rfl, (s.chan c).reject.ingest nb.val, ?_, ?_⟩
    · rw [State.setChan_setChan, State.setChan_chan]
    · rw [Channel.ingest_reject_visible]
      rfl
  · obtain ⟨hbound, rfl⟩ := exec_finalize_eq_next h
    have hbound' : finalizeRefused c (s.setChan c (s.chan c).reject) = false := by
      simpa [finalizeRefused] using hbound
    refine ⟨_, rfl, (s.chan c).reject.finalize, ?_, rfl⟩
    simp [exec, execFinalize, hbound']

/-- Settles O28: command by command. -/
theorem errDoesNotGateCommands : Obligations.ErrDoesNotGateCommands := by
  intro c cmd i s t hi h
  obtain ⟨ch, rfl, ch', hch', hsame⟩ := exec_legal_cases hi h
  refine ⟨_, hch', ?_, s.sameOutside_setChan_setChan ch ch'⟩
  rwa [State.setChan_chan, State.setChan_chan]

/-! ## The message and its digest (R113 to R115, R120) -/

/-- Settles O39: INGEST nb appends the lanes to the message. -/
theorem ingestExtendsTheMessage : Obligations.IngestExtendsTheMessage := by
  intro c nb s m h
  refine ⟨_, exec_ingestInstr c nb s, ?_⟩
  rw [State.setChan_chan]
  exact h.ingest nb.val

/-- Settles O40: FINALIZE computes the digest of the message, and of the instructions that change DV only RESET and an
INGEST of one byte or more clear it. -/
theorem finalizeGivesTheDigestOfTheMessage : Obligations.FinalizeGivesTheDigestOfTheMessage := by
  refine ⟨fun c s m hm h => ⟨_, exec_finalize h, ?_⟩, fun c i s t h hset hclear => ?_⟩
  · rw [State.setChan_chan]
    exact ⟨hm.holds.finalDigest_eq, rfl, hm.finalize⟩
  · rcases exec_dv_cases c h with hkept | ⟨-, hdv⟩ | ⟨acts, -⟩ | ⟨nb, hnb, acts, -⟩
    · rw [hkept, hset] at hclear
      cases hclear
    · rw [hdv] at hclear
      cases hclear
    · exact .inl acts
    · exact .inr ⟨nb, hnb, acts⟩

/-- RESET and FINALIZE deliver the digest of the empty message, whatever the channel held. -/
theorem execAll_reset_finalize (c : Alg) (s : State) :
    ∃ t, execAll [.reset c, .finalize c] s = .next t ∧ (t.chan c).digest = packDigest (messageDigest c []) := by
  have hbound : (s.setChan c (s.chan c).reset).mayFinalize c := .inr (by simp)
  have hrun := (execAll_singleton (.finalize c) _).trans (exec_finalize hbound)
  refine ⟨_, (execAll_cons (exec_reset c s)).trans hrun, ?_⟩
  rw [State.setChan_chan, State.setChan_chan]
  exact (s.chan c).reset_represents.holds.finalDigest_eq

/-- The MD5 digest of the empty message (95_test_vectors.md). -/
theorem md5_empty_hex : hexDigest (recoverDigest ((packDigest (messageDigest .md5 [])).toList.take 4))
    = "d41d8cd98f00b204e9800998ecf8427e".toList := by
  decide +kernel

/-- The SHA-1 digest of the empty message (95_test_vectors.md). -/
theorem sha1_empty_hex : hexDigest (recoverDigest (packDigest (messageDigest .sha1 [])).toList)
    = "da39a3ee5e6b4b0d3255bfef95601890afd80709".toList := by
  decide +kernel

/-- Settles O41: the DIGEST registers hold the digest of the empty message, evaluated once for each algorithm. -/
theorem resetThenFinalizeGivesTheEmptyDigest : Obligations.ResetThenFinalizeGivesTheEmptyDigest := by
  intro s
  obtain ⟨t, ht, hmd5⟩ := execAll_reset_finalize .md5 s
  obtain ⟨u, hu, hsha1⟩ := execAll_reset_finalize .sha1 s
  rw [State.chan_md5] at hmd5
  rw [State.chan_sha1] at hsha1
  exact ⟨⟨t, ht, by rw [hmd5, md5_empty_hex]⟩, u, hu, by rw [hsha1, sha1_empty_hex]⟩

/-- A Fresh channel stands for the empty message only. -/
theorem Channel.Represents.fresh_iff (h : ch.Represents m) : ch.Fresh ↔ m = [] := by
  rw [Fresh, h.absorbed, List.length_eq_zero_iff]

/-- NOP, an INGEST of 0 bytes, FINALIZE and a rejected word keep the count of absorbed bytes (R120). -/
theorem exec_keeps_absorbed
    (hi : i = .nop c ∨ i = .ingest0 c ∨ i = .finalize c ∨ ∃ v, v ∉ legalCommandWords ∧ i = .wrReg c 0x00 v)
    (h : exec i s = .next t) : (t.chan c).absorbed = (s.chan c).absorbed := by
  rcases hi with rfl | rfl | rfl | ⟨v, hv, rfl⟩
  · cases h; rfl
  · rw [exec_ingest0] at h; cases h; rfl
  · obtain ⟨-, rfl⟩ := exec_finalize_eq_next h
    simp
  · rw [exec_wrReg_cmd, executeCommand_reserved hv] at h
    cases h
    simp

/-- Settles O43: Fresh is a count of 0 absorbed bytes, which the commands move and the message has. -/
theorem freshLabel : Obligations.FreshLabel := by
  refine ⟨fun c s => ⟨_, exec_reset c s, by simp [Channel.Fresh]⟩, fun c nb s hnb => ?_, fun c s t i hi h => ?_,
    fun c ch m hm hfresh => ?_, fun c ch hm => hm.fresh_iff.mpr rfl⟩
  · refine ⟨_, exec_ingestInstr c nb s, ?_⟩
    rw [State.setChan_chan, Channel.Fresh, Channel.ingest_absorbed]
    omega
  · rw [Channel.Fresh, Channel.Fresh, exec_keeps_absorbed hi h]
  · obtain rfl := hm.fresh_iff.mp hfresh
    exact ⟨rfl, hm.hash, hm.count, hm.buf⟩

end Sys2Proof.Machine
end

section
/-! PROOFS. Padding and FINALIZE (41_padding_digest.md R140 to R147): the blocks of the final data, the words in which
the compressors read the length field, and the bit length of a long message. -/

namespace Sys2Proof.Machine

variable {alg : Alg} {c : Alg} {s : State} {buf : List Byte}

/-! ## One or two final blocks (R141 to R143) -/

theorem finalData_length_of_le (count : DWord) (hb : buf.length ≤ 63) :
    (finalData alg buf count).length = if buf.length ≤ 55 then 64 else 128 := by
  rw [finalData_length, padZeros]
  split <;> omega

/-- The marker stands right after the buffered bytes (R141). -/
theorem byteAt_finalData_marker (buf : List Byte) (count : DWord) :
    byteAt (finalData alg buf count) buf.length = 0x80 :=
  byteAt_append_right buf (pad alg buf count) 0

theorem compressBlocks_of_one_block (h : Vector Word alg.hashWords) {b : List Byte} (hb : b.length = 64) :
    compressBlocks alg h b (b.length / 64) = compress alg h b := by
  rw [hb, compressBlocks_succ_left h b 0, compressBlocks_zero, List.take_of_length_le (by omega)]

theorem compressBlocks_of_two_blocks (h : Vector Word alg.hashWords) {b : List Byte} (hb : b.length = 128) :
    compressBlocks alg h b (b.length / 64) = compress alg (compress alg h (b.take 64)) (b.drop 64) := by
  have hrest : (b.drop 64).length = 64 := by rw [List.length_drop]; omega
  rw [← compressBlocks_of_one_block _ hrest, hrest, hb, compressBlocks_succ_left h b 1]

/-- The final hash is H after one compression, or after two (R143, R147). -/
theorem finalHash_eq_ite (h : Vector Word alg.hashWords) (count : DWord) (hb : buf.length ≤ 63) :
    finalHash alg h buf count =
      if buf.length ≤ 55 then compress alg h (finalData alg buf count)
      else compress alg (compress alg h ((finalData alg buf count).take 64)) ((finalData alg buf count).drop 64) := by
  have hlen := finalData_length_of_le (alg := alg) count hb
  by_cases h55 : buf.length ≤ 55
  · rw [if_pos h55] at hlen ⊢
    exact compressBlocks_of_one_block h hlen
  · rw [if_neg h55] at hlen ⊢
    exact compressBlocks_of_two_blocks h hlen

/-- Settles O46: the padding fills up one block or two, and FINALIZE compresses the blocks there are. -/
theorem finalDataIsOneOrTwoBlocks : Obligations.FinalDataIsOneOrTwoBlocks := by
  refine ⟨fun c buf count hb => ?_, fun c s hb hmay => ⟨_, exec_finalize hmay, ?_⟩⟩
  · exact ⟨finalData_length_of_le count hb, List.prefix_append _ _, byteAt_finalData_marker buf count⟩
  · rw [State.setChan_chan, Channel.finalize_digest, Channel.finalDigest, digestBytesOf, finalHash_eq_ite _ _ hb]

/-! ## The length field as the compressors read it (R145) -/

theorem byteAt_drop (b : List Byte) (n i : Nat) : byteAt (b.drop n) i = byteAt b (n + i) := by
  simp [byteAt, List.getD_eq_getElem?_getD]

/-- The last block ends with the length field, in its bytes 56 to 63 (R140). -/
theorem byteAt_last_finalBlock (buf : List Byte) (count : DWord) (k : Nat) :
    byteAt (blockAt (finalData alg buf count) ((finalData alg buf count).length / 64 - 1)) (56 + k)
      = byteAt (lenField alg (bitLen count buf.length)) k := by
  have hmod := padZeros_congruent buf.length
  have hlen := finalData_length (alg := alg) buf count
  have hfield : finalData alg buf count
      = (buf ++ ([0x80] ++ zeros (padZeros buf.length))) ++ lenField alg (bitLen count buf.length) := by
    simp only [finalData, pad, List.append_assoc]
  have hbefore : 64 * ((finalData alg buf count).length / 64 - 1) + (56 + k)
      = (buf ++ ([0x80] ++ zeros (padZeros buf.length))).length + k := by
    simp only [List.length_append, List.length_singleton, zeros_length]
    omega
  rw [blockAt_eq_drop (by omega), byteAt_drop, hbefore, hfield, byteAt_append_right]

/-- Message register k of MD5 (20_memory.md R66). -/
theorem md5Words_getElem? (blk : List Byte) {k : Nat} (hk : k < 16) : (md5Words blk)[k]? = some (le32 blk (4 * k)) := by
  simp [md5Words, hk]

/-- Message word k of SHA-1 (20_memory.md R67). -/
theorem sha1Words_getElem? (blk : List Byte) {k : Nat} (hk : k < 16) :
    (sha1Words blk)[k]? = some (be32 blk (4 * k)) := by
  simp [sha1Words, hk]

theorem byteAt_le64 (v : DWord) {k : Nat} (hk : k < 8) : byteAt (le64 v) k = lane v k := by
  interval_cases k <;> rfl

theorem byteAt_be64 (v : DWord) {k : Nat} (hk : k < 8) : byteAt (be64 v) k = lane v (7 - k) := by
  interval_cases k <;> rfl

/-- The lanes of a half, or of any word at a byte boundary, are lanes of the value. -/
theorem lane_extractLsb' {n : Nat} (v : BitVec n) (a : Nat) {k : Nat} (hk : k < 4) :
    lane (v.extractLsb' (8 * a) 32) k = lane v (a + k) := by
  refine BitVec.eq_of_getLsbD_eq fun r hr => ?_
  rw [getLsbD_lane _ _ _ hr, getLsbD_lane _ _ _ hr, BitVec.getLsbD_extractLsb']
  simp [show 8 * k + r < 32 by omega, Nat.mul_add, Nat.add_assoc]

/-- Where `le64(v)` stands, its word a bytes in is bits [8a+31:8a] of v (20_memory.md R66, R68). -/
theorem le32_of_le64 {b : List Byte} {o a : Nat} (v : DWord) (ha : a ≤ 4)
    (h : ∀ k, byteAt b (o + k) = byteAt (le64 v) k) : le32 b (o + a) = v.extractLsb' (8 * a) 32 :=
  le32_of_leBytes32 _ _ _ fun k hk => by
    rw [Nat.add_assoc, h, byteAt_le64 v (by omega), lane_extractLsb' v a hk]

/-- Where `be64(v)` stands, its word 4 - a bytes in is bits [8a+31:8a] of v (20_memory.md R67, R68). -/
theorem be32_of_be64 {b : List Byte} {o a : Nat} (v : DWord) (ha : a ≤ 4)
    (h : ∀ k, byteAt b (o + k) = byteAt (be64 v) k) : be32 b (o + (4 - a)) = v.extractLsb' (8 * a) 32 :=
  be32_of_beBytes32 _ _ _ fun k hk => by
    rw [Nat.add_assoc, h, byteAt_be64 v (by omega), lane_extractLsb' v a (by omega)]
    congr 1
    omega

/-- Settles O47: words 14 and 15 are the two halves of the length field, at bytes 56 and 60 of the last block. -/
theorem lengthFieldInTheLastTwoWords : Obligations.LengthFieldInTheLastTwoWords := by
  intro buf count _
  have hmd5 := byteAt_last_finalBlock (alg := .md5) buf count
  have hsha1 := byteAt_last_finalBlock (alg := .sha1) buf count
  exact ⟨(md5Words_getElem? _ (by decide)).trans (congrArg some (le32_of_le64 (a := 0) _ (by decide) hmd5)),
    (md5Words_getElem? _ (by decide)).trans (congrArg some (le32_of_le64 (a := 4) _ (by decide) hmd5)),
    (sha1Words_getElem? _ (by decide)).trans (congrArg some (be32_of_be64 (a := 4) _ (by decide) hsha1)),
    (sha1Words_getElem? _ (by decide)).trans (congrArg some (be32_of_be64 (a := 0) _ (by decide) hsha1))⟩

/-! ## The bit length of a message, and of a long one (R144, R146) -/

/-- Settles O48: COUNT and BUF of a channel that stands for a message give the message's bit length. -/
theorem bitLenIsTheMessageBitLength : Obligations.BitLenIsTheMessageBitLength :=
  fun _ _ _ h => h.holds.bitLen_eq

/-- One reduction modulo 2^64 is enough: `BitLen` is the low 64 bits of 8 times the bytes counted (R144). -/
theorem bitLen_eq_ofNat (count : DWord) (n : Nat) : bitLen count n = BitVec.ofNat 64 (8 * (count.toNat + n)) := by
  apply BitVec.eq_of_toNat_eq
  simp only [bitLen, BitVec.toNat_ofNat]
  omega

/-- FINALIZE beyond the bound of LEN_OVERFLOW (R146). -/
theorem exec_finalize_beyond_bound (hl : s.lenOverflow = .refuse) (h : 2 ^ 61 - 1 < (s.chan c).absorbed) :
    exec (.finalize c) s = .refused .lengthOverflow := by
  have hrefused : finalizeRefused c s = true := by
    have : Config.lengthLimit ≤ (s.chan c).absorbed := by unfold Config.lengthLimit; omega
    simp [finalizeRefused, hl, this]
  simp [exec, execFinalize, hrefused]

/-- Settles O16: within the bound FINALIZE replaces the channel, and beyond it is refused. -/
theorem lenOverflowGovernsLongMessages : Obligations.LenOverflowGovernsLongMessages := by
  refine fun c s => ⟨fun hwrap => ⟨_, exec_finalize (.inl hwrap), ?_⟩, exec_finalize_beyond_bound,
    fun _ hbound => ⟨_, exec_finalize (.inr hbound)⟩⟩
  rw [State.setChan_chan]
  exact ⟨rfl, rfl, bitLen_eq_ofNat _ _⟩

end Sys2Proof.Machine
end

section
/-! PROOFS. The MD5 compressor's file (42_md5_compressor.md R170, R172) and its SHA-1 twins (43_sha1_compressor.md R210,
R214): the ports as bit layouts, and the other forms of the boolean functions. -/

namespace Sys2Proof.Machine

variable {alg : Alg}

/-! ## The ports (R170, R210) -/

theorem packWords_eq_ofDigits (ws : List Word) : packWords ws = Nat.ofDigits (2 ^ 32) (ws.map BitVec.toNat) := by
  induction ws with
  | nil => rfl
  | cons w ws ih => rw [packWords, ih, List.map_cons, Nat.ofDigits_cons]

theorem packBytes_eq_ofDigits (bs : List Byte) : packBytes bs = Nat.ofDigits (2 ^ 8) (bs.map BitVec.toNat) := by
  induction bs with
  | nil => rfl
  | cons b bs ih => rw [packBytes, ih, List.map_cons, Nat.ofDigits_cons]

/-- Bit i of item j of a packed list of w-bit items is its bit wj + i. -/
theorem testBit_ofDigits_toNat {w i : Nat} (hi : i < w) (l : List (BitVec w)) {j : Nat} (hj : j < l.length) :
    (Nat.ofDigits (2 ^ w) (l.map BitVec.toNat)).testBit (w * j + i) = l[j].getLsbD i := by
  induction l generalizing j with
  | nil => contradiction
  | cons x l ih =>
    rw [List.map_cons, Nat.ofDigits_cons, Nat.add_comm, Nat.testBit_two_pow_mul_add _ x.isLt]
    cases j with
    | zero => simp [hi, BitVec.testBit_toNat]
    | succ j =>
      have hpos : w * (j + 1) + i = w + (w * j + i) := by rw [Nat.mul_succ]; omega
      simp [hpos, ih (Nat.lt_of_succ_lt_succ hj)]

/-- Item j of a packed list is read back from bits [wj+w-1:wj] of a port wide enough for it. -/
theorem extractLsb'_ofNat_ofDigits {w n : Nat} (l : List (BitVec w)) {j : Nat} (hj : j < l.length)
    (hn : w * l.length ≤ n) :
    (BitVec.ofNat n (Nat.ofDigits (2 ^ w) (l.map BitVec.toNat))).extractLsb' (w * j) w = l[j] := by
  refine BitVec.eq_of_getLsbD_eq fun i hi => ?_
  have hbit : w * j + i < n := by
    have hend : w * j + w ≤ w * l.length := Nat.mul_le_mul_left w hj
    omega
  rw [BitVec.getLsbD_extractLsb', BitVec.getLsbD_ofNat, testBit_ofDigits_toNat hi l hj]
  simp [hi, hbit]

@[simp] theorem portState_statePort (h : Vector Word alg.hashWords) : portState alg (statePort alg h) = h := by
  ext j hj : 1
  rw [portState, Vector.getElem_ofFn, statePort, packWords_eq_ofDigits,
    extractLsb'_ofNat_ofDigits h.toList (by simpa) (by simp), Vector.getElem_toList]

theorem portBlock_blockPort {blk : List Byte} (hblk : blk.length = 64) : portBlock (blockPort blk) = blk := by
  refine List.ext_getElem (by simp [portBlock, hblk]) fun m _ hm => ?_
  simp only [portBlock, List.getElem_map, List.getElem_range, blockPort, packBytes_eq_ofDigits]
  exact extractLsb'_ofNat_ofDigits blk hm (by omega)

/-- Settles O53: the compressor reads back from its input ports the hash state and the block laid out there. -/
theorem compressorPortsCarryTheCompression : Obligations.CompressorPortsCarryTheCompression := by
  intro alg h blk hblk
  rw [compressorPort, portState_statePort, portBlock_blockPort hblk]

/-! ## The other forms of the boolean functions (R172, R214) -/

/-- Taking y where x is 1 and z elsewhere is flipping z where x is 1 and y differs from z. -/
theorem md5F_eq_xor (x y z : Word) : md5F x y z = z ^^^ (x &&& (y ^^^ z)) := by
  ext i hi
  cases hx : x[i]
  · simp [md5F, hx]
  · simp [md5F, hx, Bool.xor_comm y[i]]

/-- G is F with the selecting word last. -/
theorem md5G_eq_md5F (x y z : Word) : md5G x y z = md5F z x y := by
  rw [md5G, md5F, BitVec.and_comm x z, BitVec.and_comm y]

theorem sha1Ch_eq_md5F (b c d : Word) : sha1Ch b c d = md5F b c d := rfl

theorem sha1Maj_eq_or (b c d : Word) : sha1Maj b c d = (b &&& c) ||| (d &&& (b ||| c)) := by
  rw [sha1Maj, BitVec.or_assoc, ← BitVec.and_or_distrib_right, BitVec.and_comm _ d]

/-- Settles O52: F, G and Ch select by one word, and Maj takes d out of the two conjunctions it stands in. -/
theorem booleanFunctionsHaveEquivalentForms : Obligations.BooleanFunctionsHaveEquivalentForms := by
  refine fun x y z => ⟨md5F_eq_xor x y z, ?_, ?_, sha1Maj_eq_or x y z⟩
  · rw [md5G_eq_md5F, md5F_eq_xor]
  · rw [sha1Ch_eq_md5F, md5F_eq_xor]

end Sys2Proof.Machine
end

section
/-! PROOFS. The 16-word rolling schedule of SHA-1 (43_sha1_compressor.md R213): at every step its slots hold the last
16 words of the 80-word schedule, so both forms mix the same words. -/

namespace Sys2Proof.Machine

/-! ## The schedule's words (R211, R212) -/

@[simp] theorem sha1Words_length (blk : List Byte) : (sha1Words blk).length = 16 := by simp [sha1Words]

@[simp] theorem sha1Expand_length (w : List Word) (n : Nat) : (sha1Expand w n).length = w.length + n := by
  induction n with
  | zero => rfl
  | succ n ih => simp [sha1Expand, ih, Nat.add_assoc]

/-- Further expansion keeps the words already there. -/
theorem sha1Expand_add_getD (w : List Word) {n t : Nat} (ht : t < w.length + n) (k : Nat) :
    (sha1Expand w (n + k)).getD t 0 = (sha1Expand w n).getD t 0 := by
  induction k with
  | zero => rfl
  | succ k ih =>
    rw [← ih, ← Nat.add_assoc, sha1Expand, List.getD_append _ _ _ _ (by rw [sha1Expand_length]; omega)]

theorem sha1Schedule_getD_expand (blk : List Byte) {n t : Nat} (hn : n ≤ 64) (ht : t < 16 + n) :
    (sha1Schedule blk).getD t 0 = (sha1Expand (sha1Words blk) n).getD t 0 := by
  rw [sha1Schedule, ← Nat.add_sub_cancel' hn]
  exact sha1Expand_add_getD _ (by rwa [sha1Words_length]) _

/-- The first 16 words are the block's (R211). -/
theorem sha1Schedule_getD_of_lt (blk : List Byte) {t : Nat} (ht : t < 16) :
    (sha1Schedule blk).getD t 0 = (sha1Words blk).getD t 0 :=
  sha1Schedule_getD_expand blk (Nat.zero_le 64) ht

/-- Every later word comes from four of the 16 words before it (R212). -/
theorem sha1Schedule_getD_of_ge (blk : List Byte) {t : Nat} (ht : 16 ≤ t) (ht' : t < 80) :
    (sha1Schedule blk).getD t 0 = rotl ((sha1Schedule blk).getD (t - 3) 0 ^^^ (sha1Schedule blk).getD (t - 8) 0
      ^^^ (sha1Schedule blk).getD (t - 14) 0 ^^^ (sha1Schedule blk).getD (t - 16) 0) 1 := by
  obtain ⟨n, rfl⟩ := Nat.exists_eq_add_of_le ht
  have hlen : (sha1Expand (sha1Words blk) n).length = 16 + n := by simp
  have hbefore (j : Nat) (hj : 0 < j) :
      (sha1Schedule blk).getD (16 + n - j) 0 = (sha1Expand (sha1Words blk) n).getD (16 + n - j) 0 :=
    sha1Schedule_getD_expand blk (by omega) (by omega)
  rw [hbefore 3 (by decide), hbefore 8 (by decide), hbefore 14 (by decide), hbefore 16 (by decide),
    sha1Schedule_getD_expand blk (n := n + 1) (by omega) (by omega), sha1Expand,
    List.getD_append_right _ _ _ _ hlen.le, sha1NextWord, hlen, Nat.sub_self, List.getD_cons_zero]

theorem sha1Steps_succ (w : List Word) (v : Sha1Vars) (n : Nat) :
    sha1Steps w v (n + 1) = sha1Mix (sha1Steps w v n) n (w.getD n 0) := by
  simp [sha1Steps, List.range_succ]

/-! ## The rolling slots -/

/-- The 16 slots hold the words W[n-16] to W[n-1] of a schedule, each in the slot of its index modulo 16. -/
structure HoldsWindow (w q : List Word) (n : Nat) : Prop where
  length_eq : q.length = 16
  slot_eq : ∀ u, u < n → n ≤ u + 16 → q.getD (u % 16) 0 = w.getD u 0

theorem holdsWindow_sha1Words (blk : List Byte) : HoldsWindow (sha1Schedule blk) (sha1Words blk) 16 where
  length_eq := sha1Words_length blk
  slot_eq u hu _ := by rw [Nat.mod_eq_of_lt hu, sha1Schedule_getD_of_lt blk hu]

/-- Writing W[n] over W[n-16] moves the window on by one word. -/
theorem HoldsWindow.set {w q : List Word} {n : Nat} (hq : HoldsWindow w q n) :
    HoldsWindow w (q.set (n % 16) (w.getD n 0)) (n + 1) where
  length_eq := by rw [List.length_set, hq.length_eq]
  slot_eq u hu hwin := by
    rw [List.getD_eq_getElem?_getD]
    obtain rfl | hlt := Nat.eq_or_lt_of_le (Nat.le_of_lt_succ hu)
    · have hslot : u % 16 < q.length := by rw [hq.length_eq]; omega
      rw [List.getElem?_set_self hslot, Option.getD_some]
    · rw [List.getElem?_set_ne (by omega), ← List.getD_eq_getElem?_getD, hq.slot_eq u hlt (by omega)]

/-- A step before step 16 leaves the slots as they were loaded. -/
theorem sha1RollingStep_slots_of_lt (qv : List Word × Sha1Vars) {t : Nat} (ht : t < 16) :
    (sha1RollingStep qv t).1 = qv.1 := if_pos ht

/-- From step 16 on, the word a step writes over W[t-16] is W[t] (R213). -/
theorem sha1RollingStep_slots_of_ge {blk : List Byte} {qv : List Word × Sha1Vars} {t : Nat}
    (hq : HoldsWindow (sha1Schedule blk) qv.1 t) (ht : 16 ≤ t) (ht' : t < 80) :
    (sha1RollingStep qv t).1 = qv.1.set (t % 16) ((sha1Schedule blk).getD t 0) := by
  have hold : qv.1.getD (t % 16) 0 = (sha1Schedule blk).getD (t - 16) 0 := by
    rw [Nat.mod_eq_sub_mod ht]
    exact hq.slot_eq _ (by omega) (by omega)
  rw [sha1Schedule_getD_of_ge blk ht ht', ← hq.slot_eq (t - 3) (by omega) (by omega),
    ← hq.slot_eq (t - 8) (by omega) (by omega), ← hq.slot_eq (t - 14) (by omega) (by omega), ← hold]
  exact if_neg (by omega)

/-- What a step mixes in is the word in its slot after the write. -/
theorem sha1RollingStep_vars (qv : List Word × Sha1Vars) (t : Nat) :
    (sha1RollingStep qv t).2 = sha1Mix qv.2 t ((sha1RollingStep qv t).1.getD (t % 16) 0) := rfl

/-- A step keeps the slots on the last 16 words, which before step 16 are the block's own. -/
theorem sha1RollingStep_holdsWindow {blk : List Byte} {qv : List Word × Sha1Vars} {t : Nat}
    (hq : HoldsWindow (sha1Schedule blk) qv.1 (max t 16)) (ht : t < 80) :
    HoldsWindow (sha1Schedule blk) (sha1RollingStep qv t).1 (max (t + 1) 16) := by
  obtain hlt | hge := Nat.lt_or_ge t 16
  · rw [sha1RollingStep_slots_of_lt qv hlt, Nat.max_eq_right hlt]
    rwa [Nat.max_eq_right hlt.le] at hq
  · rw [Nat.max_eq_left hge] at hq
    rw [sha1RollingStep_slots_of_ge hq hge ht, Nat.max_eq_left (Nat.le_succ_of_le hge)]
    exact hq.set

/-! ## The rolling form refines the 80-word schedule -/

/-- The slots and the working variables of the rolling form after its first n steps. -/
def sha1Rolling (h : Vector Word 5) (blk : List Byte) (n : Nat) : List Word × Sha1Vars :=
  (List.range n).foldl sha1RollingStep (sha1Words blk, sha1Load h)

theorem sha1Rolling_succ (h : Vector Word 5) (blk : List Byte) (n : Nat) :
    sha1Rolling h blk (n + 1) = sha1RollingStep (sha1Rolling h blk n) n := by
  simp [sha1Rolling, List.range_succ]

theorem sha1CompressRolling_eq_sha1Rolling (h : Vector Word 5) (blk : List Byte) :
    sha1CompressRolling h blk = sha1Add h (sha1Rolling h blk 80).2 := rfl

theorem sha1Rolling_holdsWindow (h : Vector Word 5) (blk : List Byte) {n : Nat} (hn : n ≤ 80) :
    HoldsWindow (sha1Schedule blk) (sha1Rolling h blk n).1 (max n 16) := by
  induction n with
  | zero => exact holdsWindow_sha1Words blk
  | succ n ih =>
    rw [sha1Rolling_succ]
    exact sha1RollingStep_holdsWindow (ih (by omega)) hn

/-- Step t finds W[t] in its slot. -/
theorem sha1Rolling_slot_used (h : Vector Word 5) (blk : List Byte) {t : Nat} (ht : t < 80) :
    (sha1Rolling h blk (t + 1)).1.getD (t % 16) 0 = (sha1Schedule blk).getD t 0 :=
  (sha1Rolling_holdsWindow h blk ht).slot_eq t (by omega) (by omega)

theorem sha1Rolling_vars (h : Vector Word 5) (blk : List Byte) {n : Nat} (hn : n ≤ 80) :
    (sha1Rolling h blk n).2 = sha1Steps (sha1Schedule blk) (sha1Load h) n := by
  induction n with
  | zero => rfl
  | succ n ih =>
    have hused := sha1Rolling_slot_used h blk hn
    rw [sha1Rolling_succ] at hused ⊢
    rw [sha1RollingStep_vars, hused, ih (by omega), sha1Steps_succ]

/-- Settles O51: by induction on the steps the slots hold the last 16 schedule words, so every step mixes in W[t]. -/
theorem rollingScheduleIsEquivalent : Obligations.RollingScheduleIsEquivalent := by
  refine fun h blk => ⟨fun t u hge hlt hwin hu => ?_, fun t ht => sha1Rolling_slot_used h blk ht, ?_⟩
  · exact (sha1Rolling_holdsWindow h blk hlt.le).slot_eq u (by omega) (by omega)
  · rw [sha1CompressRolling_eq_sha1Rolling, sha1Rolling_vars h blk le_rfl, sha1Compress]

end Sys2Proof.Machine
end

section
/-! PROOFS. The core raises no exception (60_exceptions.md R250): an aligned 32-bit access decodes to a well-formed
instruction (20_memory.md R61), and every well-formed instruction completes where LEN_OVERFLOW bounds no FINALIZE. -/

namespace Sys2Proof.Machine

variable {s : State} {i : Instr} {a : Access} {off : BitVec 7} {v : Word} {r : BitVec 6}

/-- An aligned 32-bit access decodes (20_memory.md R61). -/
theorem exists_decode_of_aligned (ha : a = .read off 4 ∨ a = .write off 4 v) (h4 : off.toNat % 4 = 0) :
    ∃ i, decode a = .ok i := by
  have hc : checkAccess off 4 = none := (checkAccess_eq_none_iff off 4).mpr ⟨rfl, h4⟩
  rcases ha with rfl | rfl
  · exact ⟨.rdReg (offsetChannel off) (offsetRegister off), by simp only [decode, hc]⟩
  · exact ⟨decodeWrite (offsetChannel off) (offsetRegister off) v, by simp only [decode, hc]⟩

theorem offsetAligned_iff : offsetAligned r = true ↔ r.toNat % 4 = 0 := beq_iff_eq

/-- A well-formed instruction completes: FINALIZE is never refused under wrap (41_padding_digest.md R146), a register
instruction is aligned, and a word written to CMD as a register write is a reserved one, which sets ERR (R254). -/
theorem exec_completes (hl : s.lenOverflow = .wrap) (hi : i.WellFormed) : ∃ t, exec i s = .next t := by
  cases i with
  | finalize c => exact ⟨_, exec_finalize (.inl hl)⟩
  | wrReg c r v =>
    obtain ⟨hr, h4, hreserved⟩ := wellFormed_wrReg_iff.mp hi
    by_cases h0 : r = 0x00
    · subst h0
      exact ⟨_, (exec_wrReg_cmd c v s).trans (executeCommand_reserved (hreserved rfl))⟩
    · exact ⟨s, exec_wrReg_ignored c v s (offsetAligned_iff.mp hr) h0 h4⟩
  | rdReg c r => exact ⟨_, exec_rdReg c s (offsetAligned_iff.mp hi)⟩
  | _ => exact ⟨_, rfl⟩

/-- Settles O9: the access decodes to a well-formed instruction, which completes and keeps the waiting accesses. -/
theorem everyAlignedAccessCompletes : Obligations.EveryAlignedAccessCompletes := by
  intro s off v a rest hl hp ha h4
  obtain ⟨i, hd⟩ := exists_decode_of_aligned ha h4
  have hwf : i.WellFormed := (encodeOfDecodeIsTheAccess a i hd).1
  obtain ⟨t, ht⟩ := exec_completes (s := takeAccess rest s) hl hwf
  exact ⟨t, (step_of_decode_ok hp hd).trans ht, (exec_keeps_port ht).1⟩

end Sys2Proof.Machine
end

section
/-! PROOFS. Power-on reset (70_reset_and_hazards.md R270 to R272): what the channels and their registers hold right
after it, and how the command RESET differs; and the port with nothing waiting (R280). -/

namespace Sys2Proof.Machine

variable {alg : Alg}

/-- Settles O8: the step looks at the port first, and refuses an empty one. -/
theorem noAccessIsNoStep : Obligations.NoAccessIsNoStep := by
  intro s hp
  simp only [step, hp]

/-! ## The channels after power-on (R270) -/

@[simp] theorem State.reset_chan (c : Alg) : State.reset.chan c = Channel.powerOn c := by cases c <;> rfl

@[simp] theorem State.powerOn_chan (s : State) (c : Alg) : s.powerOn.chan c = Channel.powerOn c := by cases c <;> rfl

/-- RESET takes a channel to its power-on value but for DATA (R272) and the compressor's registers. -/
theorem Channel.reset_visible (ch : Channel alg) :
    ch.reset.visible = { (Channel.powerOn alg).visible with data := ch.data } := rfl

/-- A channel after power-on is as a RESET leaves it, so it has the invariant. -/
theorem Channel.powerOn_inv (alg : Alg) : (Channel.powerOn alg).Inv := Channel.Inv.reset (Channel.powerOn alg)

/-- Settles O38: both channels are as after power-on, and so have the invariant. -/
theorem resetHasTheInvariant : Obligations.ResetHasTheInvariant :=
  State.inv_iff.mpr fun c => by
    rw [State.reset_chan]
    exact Channel.powerOn_inv c

/-! ## The registers after power-on (R271) -/

/-- Of the registers after power-on only STATUS is not 0, and only SHA-1's, whose ALG bit is hardwired to 1. -/
theorem Channel.readRegister_powerOn (c : Alg) (r : BitVec 6) :
    (Channel.powerOn c).readRegister r = if c = .sha1 ∧ r = 0x08 then 0x00010000 else 0 := by
  by_cases hr : r = 0x08
  · subst hr
    cases c <;> rfl
  · rw [if_neg fun h : c = .sha1 ∧ r = 0x08 => hr h.2, Channel.readRegister_eq, if_neg hr]
    simp [Channel.powerOn]

/-- Settles O54: the read returns the register, whose power-on value is the table's. -/
theorem registersAfterPowerOn : Obligations.RegistersAfterPowerOn := by
  intro s c r hr
  refine ⟨_, exec_rdReg c s.powerOn hr, ?_⟩
  rw [State.powerOn_chan, Channel.readRegister_powerOn]
  rfl

/-- Settles O55: RESET replaces its own channel only, by the power-on channel with DATA kept. -/
theorem resetCommandAgainstPowerOn : Obligations.ResetCommandAgainstPowerOn := by
  intro c s
  refine ⟨_, exec_reset c s, ?_, ?_⟩
  · rw [State.setChan_chan, State.powerOn_chan, Channel.reset_visible]
  · rw [State.setChan_chan_other]

end Sys2Proof.Machine
end

section
/-! PROOFS. The host sequence that hashes one message (70_reset_and_hazards.md R274): the one-shot's accesses are all
writes, which return nothing to the host; the reads after it return STATUS and the DIGEST registers. -/

namespace Sys2Proof

/-- A host access that writes. -/
def Access.isWrite : Access → Bool
  | .read _ _ => false
  | .write _ _ _ => true

end Sys2Proof

namespace Sys2Proof.Machine

variable {alg : Alg} {s t : State} {a : Access} {rest as : List Access} {n : Nat}

/-! ## Writes return nothing -/

/-- A write that takes its step returns nothing to the host, and leaves the accesses behind it. -/
theorem step_write (hw : a.isWrite = true) (hp : s.pending = a :: rest) (h : step s = .next t) :
    t.pending = rest ∧ t.response = none := by
  obtain ⟨a', rest', i, hp', hd, hexec⟩ := step_cases h
  obtain ⟨rfl, rfl⟩ := List.cons.inj (hp.symm.trans hp')
  refine ⟨(exec_keeps_port hexec).1, ?_⟩
  rcases exec_cases hexec with
    rfl | ⟨rfl, -⟩ | ⟨nb, rfl, -⟩ | ⟨-, rfl, -⟩ | ⟨v, -, rfl⟩ | ⟨v, -, -, rfl⟩ | ⟨r, hread, -⟩
  case inr.inr.inr.inr.inr.inr =>
    rw [← (encodeOfDecodeIsTheAccess a i hd).2, hread] at hw
    cases hw
  all_goals simp

/-- The first step of a run that completes, and the run of the rest. -/
theorem run_succ_eq_next (h : core.run (n + 1) s = .next t) : ∃ u, step s = .next u ∧ core.run n u = .next t := by
  cases hs : step s with
  | next u => exact ⟨u, rfl, (run_succ hs).symm.trans h⟩
  | _ => simp [Host.Core.run, core_step, hs] at h

/-- What the host sees of writes that run: no value, and the machine they leave. -/
theorem hostReads_of_writes (hw : as.all Access.isWrite = true) (hp : s.pending = as ++ rest)
    (h : core.run as.length s = .next t) : hostReads as.length s = some ([], t) := by
  induction as generalizing s with
  | nil => cases h; rfl
  | cons a as ih =>
    obtain ⟨ha, has⟩ : a.isWrite = true ∧ as.all Access.isWrite = true := by simpa using hw
    obtain ⟨u, hstep, hrun⟩ := run_succ_eq_next h
    obtain ⟨hpu, hru⟩ := step_write ha hp hstep
    rw [List.length_cons, hostReads_succ hstep, ih has hpu hrun, hru]
    rfl

/-- An absorb is a list of puts, which write DATA and CMD (30_encoding.md R90, R91). -/
theorem asmAbsorb_all_isWrite (c : Alg) (m : List Byte) : (asmAbsorb c m).all Access.isWrite = true := by
  induction m using asmAbsorb.induct with
  | case5 b₀ b₁ b₂ b₃ rest ih => exact ih
  | _ => rfl

/-- The one-shot reads nothing (R92). -/
theorem asmOneshot_all_isWrite (c : Alg) (m : List Byte) : (asmOneshot c m).all Access.isWrite = true := by
  rw [asmOneshot, List.all_append, List.all_append, asmAbsorb_all_isWrite]
  rfl

/-! ## The reads after the one-shot -/

/-- The sequence of R274: the writes of the one-shot, then the reads of STATUS and of the DIGEST registers. -/
theorem hostSequence_eq (c : Alg) (m : List Byte) :
    hostSequence c m = asmOneshot c m ++ (RegName.status :: digestRegs c).map (asmRd c) := by
  rw [hostSequence, asmReadDigest_eq, List.append_assoc]
  rfl

/-- A channel does not depend on the port. -/
theorem State.chan_withPort (s : State) (pending : List Access) (response : Option Word) (c : Alg) :
    ({ s with pending := pending, response := response } : State).chan c = s.chan c := by cases c <;> rfl

theorem Channel.status_dv (ch : Channel alg) : ch.status.getLsbD 0 = ch.dv := by
  rw [Channel.getLsbD_status ch _ (by decide)]
  simp

theorem Channel.status_err (ch : Channel alg) : ch.status.getLsbD 1 = ch.err := by
  rw [Channel.getLsbD_status ch _ (by decide)]
  simp

/-- Settles O58: the one-shot leaves the finalised channel of the message and returns nothing; the reads after it return
that channel's STATUS and DIGEST registers. -/
theorem hostSequenceReadsTheDigest : Obligations.HostSequenceReadsTheDigest := by
  intro c m rest s hlen hp
  obtain ⟨ch, hruns, hrep, herr⟩ := runs_asmOneshot (c := c) hlen
  rw [hostSequence_eq, List.append_assoc] at hp
  have hrun := hruns.run_eq hp
  have hshot := hostReads_of_writes (asmOneshot_all_isWrite c m) hp hrun
  obtain ⟨t, hreads, ht⟩ := hostReads_asmRd (RegName.status :: digestRegs c) (takeAccess_pending _ _)
  rw [takeAccess_chan, State.setChan_chan] at hreads
  have hchan : t.chan c = ch.finalize := by
    rw [ht, State.chan_withPort, takeAccess_chan, State.setChan_chan]
  refine ⟨ch.finalize.status, (digestRegs c).map fun reg => ch.finalize.readRegister (regOffset reg), t, ?_,
    ch.finalize.status_dv, ch.finalize.status_err.trans herr, ?_, ?_, congrArg State.pending ht⟩
  · rw [hostSequence_eq, List.length_append, List.length_map, hostReads_add, hshot, Option.bind_some, hreads]
    rfl
  · exact recoverDigest_digestRegs hrep.holds.finalDigest_eq
  · rw [hchan]
    exact hrep.finalize

end Sys2Proof.Machine
end
